-- ==== Sys2Proof/Word.lean ====
section
/-! DEFINITION. The machine's words: the sizes of 00_scope.md rule R10, and of rule R8 at its defaults. -/

namespace Sys2Proof

/-- A byte is 8 bits (rule R10). -/
abbrev Byte := BitVec 8

/-- A register or buffer word is 32 bits (rule R10), the default of the bus data width W_BUS (rule R8, log entry 14). -/
abbrev Word := BitVec 32

/-- A 64-bit value: the default of W_MF, the width of COUNTER, TIME, EPOCH, STEP, TCOUNT and EXPIRY (rule R8). -/
abbrev DWord := BitVec 64

/-- A byte offset in the 4 KiB register window: 12 bits (rule R60). -/
abbrev Offset := BitVec 12

end Sys2Proof
end

