-- ==== Sys2Proof/Syntax.lean ====
section
/-! DEFINITION. What the host writes to the engine: the commands (30_encoding.md rule R91), the host's transactions
(rule R98), and the names of the digests, registers and buffers they speak of. -/

namespace Sys2Proof

/-- The commands of QOTP-CMD revision 1: the nine outcomes of decoding (rules R91, R100). A command has no operand
fields; its operands are the input registers and buffers (rule R94). `illegal` keeps the word that was written, which
is any of the words that no other row matches (rules R92, R93). -/
inductive Instr where
  | nop
  | b32dec
  | hotp
  | hotpB32
  | totp
  | totpB32
  | expire
  | zeroize
  | illegal (w : Word)
deriving DecidableEq, Repr

/-- The closed set of digests (rule R4). -/
inductive Alg where
  | sha1
  | sha256
  | sha512
deriving DecidableEq, Repr

/-- The 22 registers of 10_state.md §2, in the order of their offsets. -/
inductive Reg where
  | id | params | ctrl | cmd | status | policy | keyLen | textLen
  | counterLo | counterHi | timeLo | timeHi | epochLo | epochHi | stepLo | stepHi
  | codeLen | codeVal | tcountLo | tcountHi | expiryLo | expiryHi
deriving DecidableEq, Repr

/-- The three byte buffers of the window (rules R39, R40, R41). -/
inductive Buffer where
  | code
  | key
  | text
deriving DecidableEq, Repr

/-- What an aligned, mapped offset of the window names (rule R61): a register, or word `k` of a buffer. -/
inductive Target where
  | reg (r : Reg)
  | word (b : Buffer) (k : Nat)
deriving DecidableEq, Repr

/-- How a BusWrite treats a register (rule R64): ignored, W1C, the interrupt enable, a command, or a stored input. -/
inductive Access where
  | readOnly
  | statusW1C
  | control
  | command
  | input
deriving DecidableEq, Repr

/-- The host program's operations (rule R98, and the WAIT loop of rule R99, the only loop a program may hold, rule R251). -/
inductive HostOp where
  | rd (off : Offset)
  | wr (off : Offset) (v : Word)
  | wait
deriving DecidableEq, Repr

/-- The six 64-bit values that two registers hold (rule R95), as the pseudo-instructions of rule R99 name them. -/
inductive Pair where
  | counter | time | epoch | step | tcount | expiry
deriving DecidableEq, Repr

end Sys2Proof
end

