-- ==== Sys2Proof/Config.lean ====
section
/-! DEFINITION. What an implementation fixes and the spec leaves to it: the parameters of 00_scope.md rule R8 and the
HMAC unit of 42_hotp.md rule R151. Every procedure of the machine takes a `Config`; the machine runs with
`Config.chip`. -/

namespace Sys2Proof

/-- The parameters, each with the value the spec takes as its default (rule R8). The command-set revision is the REV
field of PARAMS (rule R22). State's registers are stored at the default widths (log entry 14). -/
structure Config where
  /-- KEY_CAP: bytes in the KEY buffer. -/
  keyCap : Nat := 128
  /-- TEXT_CAP: bytes in the TEXT buffer. -/
  textCap : Nat := 192
  /-- CODE_CAP: the largest `digits` the formatter renders. -/
  codeCap : Nat := 10
  /-- CODE_BUF: bytes in the CODE window. -/
  codeBuf : Nat := 16
  /-- W_MF: bits of COUNTER, TIME, EPOCH, STEP, TCOUNT and EXPIRY, unsigned. -/
  wMf : Nat := 64
  /-- W_BUS: bits of the bus data; every access is one word of this width. -/
  wBus : Nat := 32
  /-- HASHLEN(alg): the bytes that the HMAC output of each digest must have (rules R4, R152). -/
  hashLen : Alg → Nat := fun
    | .sha1 => 20
    | .sha256 => 32
    | .sha512 => 64
  /-- REV: QOTP-CMD revision 1 (rule R3). -/
  rev : Nat := 1
  /-- QOTP_BASE: the platform's bus address of the window (rule R60; OPEN). -/
  qotpBase : Nat
  /-- QOTP_IRQ: the platform's interrupt line that irq drives (rule R217; OPEN). -/
  qotpIrq : Nat
  /-- HMAC(alg, key, msg): the keyed-hash unit, a total function to a byte sequence of any length (rule R151). -/
  hmac : Alg → List Byte → List Byte → List Byte

/-- The platform's base address: OPEN, so nothing is known of it (rule R8, decision D2; log entry 2). -/
opaque Config.openBase : Nat

/-- The platform's interrupt line: OPEN, so nothing is known of it (rule R217, decision D27; log entry 2). -/
opaque Config.openIrq : Nat

/-- The HMAC unit: outside the engine and a parameter of the model, so nothing is known of its answer, not even the
length (rules R7, R151, decision D23; log entry 1). -/
opaque Config.hmacUnit : Alg → List Byte → List Byte → List Byte

/-- The engine as the spec takes it: every parameter at its value of rule R8, the open ones left open. -/
def Config.chip : Config where
  qotpBase := Config.openBase
  qotpIrq := Config.openIrq
  hmac := Config.hmacUnit

end Sys2Proof
end

