-- ==== Sys2Proof/Machine/State.lean ====
section
/-! DEFINITION. The state of the QOTP engine and of the host at its bus (10_state.md), the reasons a step can stop, and
the state after reset (rule R47). State is plain data, in the classes of rule R38. -/

namespace Sys2Proof.Machine

/-- The thirteen failure causes (60_exceptions.md rule R210). `Cause.code` (Flags.lean) gives each its code. -/
inductive Cause where
  | illegalCmd | badAlg | lenRange | b32Char | b32Pad | emptySecret | digitPolicy
  | codeCap | zeroStep | timeBeforeEpoch | hashLen | truncRange | overflow
deriving DecidableEq, Repr

/-- The fields of STATUS (rule R25). Its reserved bits hold no state (rule R42). -/
@[ext] structure Status where
  busy : Bool
  done : Bool
  fail : Bool
  ign : Bool
  cause : BitVec 4
deriving DecidableEq, Repr

/-- The fields of POLICY (rule R27), each stored as written (rule R28). -/
@[ext] structure Policy where
  digits : BitVec 8
  dmin : BitVec 8
  dmax : BitVec 8
  alg : BitVec 2
deriving DecidableEq, Repr

/-- A 64-bit value held in two registers (rule R95). -/
@[ext] structure Reg64 where
  lo : Word
  hi : Word
deriving DecidableEq, Repr

/-- The input registers (rules R27 to R34, R38). The input buffers KEY and TEXT are in `State.mem`. -/
@[ext] structure Inputs where
  policy : Policy
  keyLen : BitVec 8
  textLen : BitVec 8
  counter : Reg64
  time : Reg64
  epoch : Reg64
  /-- STEP, "time-step width". -/
  timeStep : Reg64
deriving DecidableEq, Repr

/-- The result registers (rules R35 to R37). The result buffer CODE is in `State.mem`. -/
@[ext] structure Results where
  codeLen : BitVec 8
  codeVal : Word
  tcount : Reg64
  expiry : Reg64
deriving DecidableEq, Repr

/-- The response of a transaction (rule R63). -/
inductive Resp where
  | okay
  | busErr
deriving DecidableEq, Repr

/-- What a completed transaction gave back to the host (rules R63, R64). -/
inductive BusReply where
  | read (data : Word) (resp : Resp)
  | write (resp : Resp)
deriving DecidableEq, Repr

/-- One request of the engine at the HMAC port (rule R151). -/
structure HmacRequest where
  alg : Alg
  key : List Byte
  msg : List Byte
deriving DecidableEq, Repr

/-- Who moves: the engine sequencer, the host, or the platform asserting rst (rules R14, R240). -/
inductive Turn where
  | engine
  | host
  | reset
deriving DecidableEq, Repr

/-- What stands outside the engine (rules R14, R72, R251): the host's program, which agent moves at the coming
instants, and what the host and the HMAC unit have been given. The last two are in order from the newest to the oldest.
No command reads any of it. -/
@[ext] structure Env where
  /-- The transactions the host has still to perform, in program order. -/
  program : List HostOp
  /-- Who moves at the coming instants; every list is an interleaving that rule R72 admits (log entry 3). -/
  turns : List Turn
  /-- The replies of the transactions performed: the observation of a run (rule R251). -/
  replies : List BusReply
  /-- The requests made at the HMAC port (rule R151, log entry 4). -/
  hmacRequests : List HmacRequest
deriving DecidableEq, Repr

/-- The bytes of the buffers, at their byte offsets of the register window: addresses strictly rising, and none listed
that reads as an unlisted one does (Ops.lean: `Memory.wf`). -/
abbrev Memory := List Host.Cell

/-- The machine: the control, status, input, result and hidden state of the engine (rule R38), its buffers, and its
environment. ID and PARAMS are constants (rules R21, R22), irq is a function of the state (rule R46), and the phase is
`status.busy` (rule R43). -/
@[ext]
structure State where
  /-- CTRL.IE (rule R23). -/
  ie : Bool
  status : Status
  inputs : Inputs
  results : Results
  /-- KEY, TEXT and CODE (rules R39 to R41). -/
  mem : Memory
  /-- The command word latched at issue (rule R43). -/
  pending : Word
  env : Env
deriving DecidableEq, Repr

/-- The reasons a step stops with a fault: none. The engine has no traps; every failure is an ordinary completion
(rule R214), and a bad bus access is an ordinary transaction with response BUSERR (rule R216). No constructor, so no
step of the machine can fault: safe. -/
inductive Fault where
deriving DecidableEq, Repr

/-- The reasons a step has no meaning. -/
inductive Refusal where
  /-- Raised by `exec` alone, for an instruction whose meaning is not written yet; no arm raises it now. Safe: the
  model stops where the hardware goes on. -/
  | notModelled (mnemonic : String)
deriving DecidableEq, Repr

/-- The environment before anything has happened: no program, no turns, nothing observed (log entry 5). -/
def Env.start : Env where
  program := []
  turns := []
  replies := []
  hmacRequests := []

/-- The machine right after reset: every value as rule R47 states it. -/
def State.reset : State where
  ie := false
  status := { busy := false, done := false, fail := false, ign := false, cause := 0 }
  inputs :=
    { policy := { digits := 6, dmin := 6, dmax := 8, alg := 0 }
      keyLen := 0
      textLen := 0
      counter := { lo := 0, hi := 0 }
      time := { lo := 0, hi := 0 }
      epoch := { lo := 0, hi := 0 }
      timeStep := { lo := 30, hi := 0 } }
  results :=
    { codeLen := 0
      codeVal := 0
      tcount := { lo := 0, hi := 0 }
      expiry := { lo := 0, hi := 0 } }
  mem := []
  pending := 0
  env := Env.start

end Sys2Proof.Machine
end

