-- ==== Sys2Proof/Machine/Flags.lean ====
section
/-! DEFINITION. STATUS: its word, its write-1-to-clear bits, what issue and completion do to it, and the interrupt. -/

namespace Sys2Proof.Machine

/-- The cause codes of 60_exceptions.md rule R210. -/
def Cause.code : Cause → BitVec 4
  | .illegalCmd => 0x1
  | .badAlg => 0x2
  | .lenRange => 0x3
  | .b32Char => 0x4
  | .b32Pad => 0x5
  | .emptySecret => 0x6
  | .digitPolicy => 0x7
  | .codeCap => 0x8
  | .zeroStep => 0x9
  | .timeBeforeEpoch => 0xA
  | .hashLen => 0xB
  | .truncRange => 0xC
  | .overflow => 0xD

/-- The STATUS word (rule R25): BUSY [0], DONE [1], FAIL [2], IGN [3], CAUSE [11:8], the reserved bits 0. -/
def Status.word (st : Status) : Word :=
  (0 : BitVec 20) ++ st.cause ++ (0 : BitVec 4)
    ++ BitVec.ofBool st.ign ++ BitVec.ofBool st.fail ++ BitVec.ofBool st.done ++ BitVec.ofBool st.busy

/-- A BusWrite of `v` to STATUS: bit 1 clears DONE, bit 3 clears IGN, nothing else (rule R26). -/
def Status.w1c (v : Word) (st : Status) : Status :=
  { st with done := st.done && !v[1], ign := st.ign && !v[3] }

/-- STATUS at issue: BUSY set, DONE, FAIL and CAUSE cleared, IGN as it was (rule R112). -/
def Status.issued (st : Status) : Status :=
  { st with busy := true, done := false, fail := false, cause := 0 }

/-- STATUS at completion: BUSY cleared, DONE set, FAIL and CAUSE as the outcome gives, IGN as it was (rule R114).
`none` is the outcome ok. -/
def Status.completed (outcome : Option Cause) (st : Status) : Status :=
  { st with
    busy := false
    done := true
    fail := outcome.isSome
    cause := (outcome.map Cause.code).getD 0 }

/-- STATUS when a write was dropped because BUSY = 1 (rule R65). -/
def Status.ignored (st : Status) : Status :=
  { st with ign := true }

/-- The interrupt output: the level DONE and IE, at every instant (rules R46, R217). -/
def State.irq (s : State) : Bool :=
  s.status.done && s.ie

/-- The level of each platform interrupt line that this engine can drive: irq is on line QOTP_IRQ (rule R217). -/
def State.irqLine (cfg : Config) (s : State) (line : Nat) : Bool :=
  line == cfg.qotpIrq && s.irq

end Sys2Proof.Machine
end

