-- ==== Sys2Proof/Machine/Ops.lean ====
section
/-! DEFINITION. The shared operations: the buffers' memory, 64-bit register pairs, the writes a procedure makes, and the
two events of a command, issue and completion (40_command_cycle.md). A failing completion is this engine's form of
taking an exception: there is no handler to go to and none to return from (rules R214, R215). -/

namespace Sys2Proof.Machine

/-! ## Memory -/

/-- What a byte of the buffers that is not listed reads as: 0, the reset value of every byte (rules R39 to R41, R47). -/
def Memory.unlisted : Byte := 0

/-- The byte at offset `a`. -/
def Memory.read : Memory → Nat → Byte
  | [], _ => Memory.unlisted
  | c :: m, a => if c.1 = a then c.2 else Memory.read m a

/-- The cells that list `bs` from offset `base` on, without those that read as an unlisted byte. -/
def Memory.cells (base : Nat) : List Byte → Memory
  | [] => []
  | b :: bs =>
    if b = Memory.unlisted then Memory.cells (base + 1) bs
    else (base, b) :: Memory.cells (base + 1) bs

/-- Store the bytes `bs` at offsets `base`, `base + 1`, … -/
def Memory.store (m : Memory) (base : Nat) (bs : List Byte) : Memory :=
  m.filter (fun c => c.1 < base) ++ Memory.cells base bs ++ m.filter (fun c => base + bs.length ≤ c.1)

/-- The canonical form: offsets strictly rising, and no cell that reads as an unlisted byte does. Equal memories in this
form are equal lists. -/
abbrev Memory.wf (m : Memory) : Prop :=
  m.Pairwise (fun c d => c.1 < d.1) ∧ ∀ c ∈ m, c.2 ≠ Memory.unlisted

/-- The `n` bytes from offset `base` on. -/
def Memory.bytes (m : Memory) (base n : Nat) : List Byte :=
  (List.range n).map fun i => m.read (base + i)

/-- The base offset of a buffer (rule R61). -/
def bufferBase : Buffer → Nat
  | .code => 0x080
  | .key => 0x100
  | .text => 0x200

/-- The number of bytes of a buffer (rules R39 to R41, R8). -/
def bufferSize (cfg : Config) : Buffer → Nat
  | .code => cfg.codeBuf
  | .key => cfg.keyCap
  | .text => cfg.textCap

/-- `n` bytes: those of `bs`, then zeros (rule R139). -/
def zeroPad (n : Nat) (bs : List Byte) : List Byte :=
  bs.take n ++ List.replicate (n - bs.length) 0

/-- Store `bs` at the start of a buffer. -/
def State.storeBuffer (b : Buffer) (bs : List Byte) (s : State) : State :=
  { s with mem := s.mem.store (bufferBase b) bs }

/-- Every byte of a buffer 0. -/
def State.clearBuffer (cfg : Config) (b : Buffer) (s : State) : State :=
  s.storeBuffer b (List.replicate (bufferSize cfg b) 0)

/-! ## Register pairs -/

/-- R64(X) = X_HI * 2^32 + X_LO, an integer (rules R11, R12, R95); 32 is the width of a bus word. -/
def Reg64.val (cfg : Config) (x : Reg64) : Nat :=
  2 ^ cfg.wBus * x.hi.toNat + x.lo.toNat

/-- R64(X) <- v: X_LO takes v mod 2^32, X_HI takes v div 2^32 (rule R12). -/
def Reg64.ofVal (cfg : Config) (v : Nat) : Reg64 where
  lo := BitVec.ofNat 32 (v % 2 ^ cfg.wBus)
  hi := BitVec.ofNat 32 (v / 2 ^ cfg.wBus)

/-! ## Writes of the procedures -/

def State.setKeyLen (n : BitVec 8) (s : State) : State :=
  { s with inputs := { s.inputs with keyLen := n } }

def State.setTextLen (n : BitVec 8) (s : State) : State :=
  { s with inputs := { s.inputs with textLen := n } }

def State.setTcount (cfg : Config) (t : Nat) (s : State) : State :=
  { s with results := { s.results with tcount := Reg64.ofVal cfg t } }

def State.setExpiry (cfg : Config) (t : Nat) (s : State) : State :=
  { s with results := { s.results with expiry := Reg64.ofVal cfg t } }

/-- Every result register 0 (rule R112). -/
def Results.zero : Results where
  codeLen := 0
  codeVal := 0
  tcount := { lo := 0, hi := 0 }
  expiry := { lo := 0, hi := 0 }

/-- A request at the HMAC port, as the port sees it (rule R151). -/
def State.requestHmac (r : HmacRequest) (s : State) : State :=
  { s with env := { s.env with hmacRequests := r :: s.env.hmacRequests } }

/-! ## Procedures: writes, and an outcome (rule R115) -/

/-- What a procedure has done: the state with its writes, and its outcome, `none` for ok. -/
@[ext] structure Run where
  state : State
  outcome : Option Cause
deriving DecidableEq, Repr

/-- `ok` (rules R12, R115). -/
def Run.ok (s : State) : Run := { state := s, outcome := none }

/-- `fail(k)`: the writes made before it stand, the statements after it do not run (rules R12, R115). -/
def Run.fail (k : Cause) (s : State) : Run := { state := s, outcome := some k }

/-- The statements after a part of a procedure, which run if that part did not fail. -/
def Run.andThen (r : Run) (f : State → Run) : Run :=
  match r.outcome with
  | none => f r.state
  | some _ => r

/-! ## The two events of a command, and reset -/

/-- Issue of command word `w`: one atomic update (rule R112). -/
def State.issue (cfg : Config) (w : Word) (s : State) : State :=
  { s.clearBuffer cfg .code with
    pending := w
    status := s.status.issued
    results := Results.zero }

/-- Completion: the procedure's writes, then STATUS and `pending`, one atomic update (rule R114). -/
def complete (r : Run) : State :=
  { r.state with status := r.state.status.completed r.outcome, pending := 0 }

/-- The platform asserts rst: every piece of the engine's state takes its reset value, a pending command is abandoned,
and what stands outside the engine is as it was (rules R240, R241). -/
def hardReset (s : State) : State :=
  { State.reset with env := s.env }

end Sys2Proof.Machine
end

