-- ==== Sys2Proof/Machine/Operands.lean ====
section
/-! DEFINITION. The operand forms of 30_encoding.md rule R94 and the register file the host sees (10_state.md §2). -/

namespace Sys2Proof.Machine

/-! ## Operands of commands -/

/-- secret: KEY[0..KEY_LEN) (rule R94). -/
def State.secret (s : State) : List Byte :=
  s.mem.bytes (bufferBase .key) s.inputs.keyLen.toNat

/-- text: TEXT[0..TEXT_LEN) (rule R94). -/
def State.text (s : State) : List Byte :=
  s.mem.bytes (bufferBase .text) s.inputs.textLen.toNat

/-- The digest a code of POLICY.ALG names; 3 is reserved (rules R27, R96). -/
def algOf (code : BitVec 2) : Option Alg :=
  match code.toNat with
  | 0 => some .sha1
  | 1 => some .sha256
  | 2 => some .sha512
  | _ => none

/-! ## The register file -/

/-- The offset of a register (10_state.md §2). -/
def regOffset : Reg → Offset
  | .id => 0x000
  | .params => 0x004
  | .ctrl => 0x008
  | .cmd => 0x00C
  | .status => 0x010
  | .policy => 0x014
  | .keyLen => 0x018
  | .textLen => 0x01C
  | .counterLo => 0x020
  | .counterHi => 0x024
  | .timeLo => 0x028
  | .timeHi => 0x02C
  | .epochLo => 0x030
  | .epochHi => 0x034
  | .stepLo => 0x038
  | .stepHi => 0x03C
  | .codeLen => 0x040
  | .codeVal => 0x044
  | .tcountLo => 0x048
  | .tcountHi => 0x04C
  | .expiryLo => 0x050
  | .expiryHi => 0x054

/-- How a BusWrite treats each register (10_state.md §2, rule R64). -/
def regAccess : Reg → Access
  | .id | .params | .codeLen | .codeVal | .tcountLo | .tcountHi | .expiryLo | .expiryHi => .readOnly
  | .status => .statusW1C
  | .ctrl => .control
  | .cmd => .command
  | .policy | .keyLen | .textLen | .counterLo | .counterHi | .timeLo | .timeHi
  | .epochLo | .epochHi | .stepLo | .stepHi => .input

/-- ID: the bytes "QOTP" (rule R21). -/
def idWord : Word := 0x514F5450

/-- PARAMS: KEY_CAP [7:0], TEXT_CAP [15:8], CODE_CAP [23:16], REV [31:24] (rule R22). -/
def paramsWord (cfg : Config) : Word :=
  BitVec.ofNat 8 cfg.rev ++ BitVec.ofNat 8 cfg.codeCap ++ BitVec.ofNat 8 cfg.textCap ++ BitVec.ofNat 8 cfg.keyCap

/-- The POLICY word (rule R27). -/
def Policy.word (p : Policy) : Word :=
  (0 : BitVec 6) ++ p.alg ++ p.dmax ++ p.dmin ++ p.digits

/-- The fields of a word written to POLICY, stored as written, the reserved bits dropped (rules R28, R42). -/
def Policy.ofWord (v : Word) : Policy where
  digits := v.extractLsb' 0 8
  dmin := v.extractLsb' 8 8
  dmax := v.extractLsb' 16 8
  alg := v.extractLsb' 24 2

/-- What a BusRead of a register gives: its value, reserved bits 0; CMD reads 0 (rules R24, R42, R63). -/
def State.readReg (cfg : Config) (s : State) : Reg → Word
  | .id => idWord
  | .params => paramsWord cfg
  | .ctrl => (0 : BitVec 31) ++ BitVec.ofBool s.ie
  | .cmd => 0
  | .status => s.status.word
  | .policy => s.inputs.policy.word
  | .keyLen => s.inputs.keyLen.zeroExtend 32
  | .textLen => s.inputs.textLen.zeroExtend 32
  | .counterLo => s.inputs.counter.lo
  | .counterHi => s.inputs.counter.hi
  | .timeLo => s.inputs.time.lo
  | .timeHi => s.inputs.time.hi
  | .epochLo => s.inputs.epoch.lo
  | .epochHi => s.inputs.epoch.hi
  | .stepLo => s.inputs.timeStep.lo
  | .stepHi => s.inputs.timeStep.hi
  | .codeLen => s.results.codeLen.zeroExtend 32
  | .codeVal => s.results.codeVal
  | .tcountLo => s.results.tcount.lo
  | .tcountHi => s.results.tcount.hi
  | .expiryLo => s.results.expiry.lo
  | .expiryHi => s.results.expiry.hi

/-- The input registers after `v` is stored in one of them, its reserved bits dropped (rules R27 to R34, R42, R64). The
registers that are no input register hold nothing of `v`. -/
def Inputs.store (r : Reg) (v : Word) (x : Inputs) : Inputs :=
  match r with
  | .policy => { x with policy := Policy.ofWord v }
  | .keyLen => { x with keyLen := v.extractLsb' 0 8 }
  | .textLen => { x with textLen := v.extractLsb' 0 8 }
  | .counterLo => { x with counter := { x.counter with lo := v } }
  | .counterHi => { x with counter := { x.counter with hi := v } }
  | .timeLo => { x with time := { x.time with lo := v } }
  | .timeHi => { x with time := { x.time with hi := v } }
  | .epochLo => { x with epoch := { x.epoch with lo := v } }
  | .epochHi => { x with epoch := { x.epoch with hi := v } }
  | .stepLo => { x with timeStep := { x.timeStep with lo := v } }
  | .stepHi => { x with timeStep := { x.timeStep with hi := v } }
  | .id | .params | .ctrl | .cmd | .status | .codeLen | .codeVal
  | .tcountLo | .tcountHi | .expiryLo | .expiryHi => x

end Sys2Proof.Machine
end

