-- ==== Sys2Proof/Machine/Control.lean ====
section
/-! DEFINITION. The commands that compute nothing: NOP, ZEROIZE (44_control.md) and ILLEGAL (40_command_cycle.md
rule R117). -/

namespace Sys2Proof.Machine

/-- NOP: `ok` (rule R200). -/
def execNop (s : State) : Host.Outcome State Fault Refusal :=
  .next (complete (Run.ok s))

/-- The procedure ZEROIZE (rule R201). -/
def zeroizeProc (cfg : Config) (s : State) : Run :=
  Run.ok ((((s.clearBuffer cfg .key).clearBuffer cfg .text).setKeyLen 0).setTextLen 0)

/-- ZEROIZE (rule R201). -/
def execZeroize (s : State) : Host.Outcome State Fault Refusal :=
  .next (complete (zeroizeProc Config.chip s))

/-- ILLEGAL: `fail(ILLEGAL_CMD)`, whatever the word (rule R117). No copy of the word is kept (rule R210). -/
def execIllegal (_w : Word) (s : State) : Host.Outcome State Fault Refusal :=
  .next (complete (Run.fail .illegalCmd s))

end Sys2Proof.Machine
end

