-- ==== Sys2Proof/Machine/Base32.lean ====
section
/-! DEFINITION. The Base32 decoder and B32DEC (41_base32.md). -/

namespace Sys2Proof.Machine

/-- Case folding: ASCII 'a' to 'z' alone (rule R131). -/
def foldCase (b : Byte) : Byte :=
  if 0x61 ≤ b.toNat ∧ b.toNat ≤ 0x7A then b - 0x20 else b

/-- The 5-bit value of a folded symbol byte: 'A'..'Z' are 0..25, '2'..'7' are 26..31; `none` for every other byte
(rule R130). -/
def symbolValue (b : Byte) : Option Nat :=
  if 0x41 ≤ b.toNat ∧ b.toNat ≤ 0x5A then some (b.toNat - 0x41)
  else if 0x32 ≤ b.toNat ∧ b.toNat ≤ 0x37 then some (b.toNat - 0x32 + 26)
  else none

/-- '=' (rule R13). -/
def padByte : Byte := 0x3D

/-- The loop of rule R133 from one character on: `acc` holds `bits` bits, `pad` counts the '=' seen, and the answer is
the bytes emitted from here on. The tests come in the rule's order: padding, padding already seen, membership. -/
def b32loop : (acc bits pad : Nat) → List Byte → Except Cause (List Byte)
  | _, _, _, [] => .ok []
  | acc, bits, pad, t :: ts =>
    if foldCase t = padByte then b32loop acc bits (pad + 1) ts
    else if pad > 0 then .error .b32Pad
    else
      match symbolValue (foldCase t) with
      | none => .error .b32Char
      | some v =>
        if bits + 5 ≥ 8 then
          match b32loop ((acc * 32 + v) % 2 ^ (bits + 5 - 8)) (bits + 5 - 8) pad ts with
          | .ok out => .ok (BitVec.ofNat 8 ((acc * 32 + v) / 2 ^ (bits + 5 - 8)) :: out)
          | .error k => .error k
        else b32loop (acc * 32 + v) (bits + 5) pad ts

/-- b32decode(t) (rule R133). -/
def b32decode (t : List Byte) : Except Cause (List Byte) :=
  b32loop 0 0 0 t

/-- KEY and KEY_LEN after a decode gave `out`: the bytes, then zeros to KEY_CAP (rule R139). -/
def State.setKey (cfg : Config) (out : List Byte) (s : State) : State :=
  (s.storeBuffer .key (zeroPad cfg.keyCap out)).setKeyLen (BitVec.ofNat 8 out.length)

/-- The decode step of a command (rule R139): on failure KEY is all zero and KEY_LEN 0. -/
def decodeStep (cfg : Config) (s : State) : Run :=
  match b32decode s.text with
  | .ok out => Run.ok (s.setKey cfg out)
  | .error k => Run.fail k (s.setKey cfg [])

/-- The length check of a decoding command, then the decode step (rules R138, R139). -/
def decodeText (cfg : Config) (s : State) : Run :=
  if cfg.textCap < s.inputs.textLen.toNat then Run.fail .lenRange s else decodeStep cfg s

/-- The procedure B32DEC (rule R140). -/
def b32decProc (cfg : Config) (s : State) : Run :=
  decodeText cfg s

/-- B32DEC (rule R140). -/
def execB32dec (s : State) : Host.Outcome State Fault Refusal :=
  .next (complete (b32decProc Config.chip s))

end Sys2Proof.Machine
end

