-- ==== Sys2Proof/Machine/Hotp.lean ====
section
/-! DEFINITION. The HOTP dynamic-truncation engine, HOTP and HOTP_B32 (42_hotp.md). -/

namespace Sys2Proof.Machine

/-- The counter as the 8 bytes of its W_MF bits, most significant first: byte i is (c div 2^(56 - 8i)) mod 2^8
(rule R150). -/
def counterBytes (cfg : Config) (c : Nat) : List Byte :=
  (List.range (cfg.wMf / 8)).map fun i => BitVec.ofNat 8 (c / 2 ^ (cfg.wMf - 8 - 8 * i))

/-- Dynamic truncation (rule R157): the offset is the low nibble of the hash's last byte, the value the 4 bytes from it,
big-endian, the first masked with 0x7F; `none` if they do not lie in the hash. -/
def truncate (h : List Byte) : Option Nat :=
  let offset := (h.getD (h.length - 1) 0).toNat % 16
  if offset + 4 > h.length then none
  else
    some (((h.getD offset 0).toNat % 128) * 2 ^ 24 + (h.getD (offset + 1) 0).toNat * 2 ^ 16
      + (h.getD (offset + 2) 0).toNat * 2 ^ 8 + (h.getD (offset + 3) 0).toNat)

/-- The code's characters: `digits` decimal digits of `val`, the most significant first (rule R160). -/
def renderDigits (digits val : Nat) : List Byte :=
  (List.range digits).map fun i => BitVec.ofNat 8 (0x30 + val / 10 ^ (digits - 1 - i) % 10)

/-- write_code(d, val) (rule R164). -/
def State.writeCode (digits val : Nat) (s : State) : State :=
  { s.storeBuffer .code (renderDigits digits val) with
    results := { s.results with codeLen := BitVec.ofNat 8 digits, codeVal := BitVec.ofNat 32 val } }

/-- The stages after the HMAC unit answered `h`: length check, truncation, reduction, rendering (rules R156 to R164). -/
def hashStages (cfg : Config) (alg : Alg) (h : List Byte) (s : State) : Run :=
  if h.length ≠ cfg.hashLen alg then Run.fail .hashLen s
  else
    match truncate h with
    | none => Run.fail .truncRange s
    | some v =>
      let digits := s.inputs.policy.digits.toNat
      Run.ok (s.writeCode digits (v % 10 ^ digits))

/-- hotp_core(KEY_LEN, c), for the digest `alg` that POLICY.ALG names (rule R161): the secret, policy and capacity
checks, one request at the HMAC port, then the stages on its answer. -/
def hotpCore (cfg : Config) (alg : Alg) (c : Nat) (s : State) : Run :=
  let n := s.inputs.keyLen.toNat
  let p := s.inputs.policy
  if cfg.keyCap < n then Run.fail .lenRange s
  else if n = 0 then Run.fail .emptySecret s
  else if ¬(p.dmin.toNat ≤ p.digits.toNat ∧ p.digits.toNat ≤ p.dmax.toNat) then Run.fail .digitPolicy s
  else if cfg.codeCap < p.digits.toNat then Run.fail .codeCap s
  else
    hashStages cfg alg (cfg.hmac alg s.secret (counterBytes cfg c))
      (s.requestHmac { alg := alg, key := s.secret, msg := counterBytes cfg c })

/-- The algorithm check, the first of every command that hashes (rule R152). -/
def withAlg (s : State) (k : Alg → Run) : Run :=
  match algOf s.inputs.policy.alg with
  | none => Run.fail .badAlg s
  | some alg => k alg

/-- The procedure HOTP (rule R162). -/
def hotpProc (cfg : Config) (s : State) : Run :=
  withAlg s fun alg => hotpCore cfg alg (s.inputs.counter.val cfg) s

/-- HOTP (rule R162). -/
def execHotp (s : State) : Host.Outcome State Fault Refusal :=
  .next (complete (hotpProc Config.chip s))

/-- The procedure HOTP_B32 (rule R163): the core reads the KEY and KEY_LEN that the decode wrote. -/
def hotpB32Proc (cfg : Config) (s : State) : Run :=
  withAlg s fun alg => (decodeText cfg s).andThen fun s' => hotpCore cfg alg (s'.inputs.counter.val cfg) s'

/-- HOTP_B32 (rule R163). -/
def execHotpB32 (s : State) : Host.Outcome State Fault Refusal :=
  .next (complete (hotpB32Proc Config.chip s))

end Sys2Proof.Machine
end

