-- ==== Sys2Proof/Machine/Totp.lean ====
section
/-! DEFINITION. The time-to-counter adapter and the window-expiry calculator: TOTP, TOTP_B32 and EXPIRE (43_totp.md). -/

namespace Sys2Proof.Machine

/-- The checks of the time triple that TOTP and EXPIRE share: STEP = 0 first, then TIME < EPOCH (rules R180 to R182,
R190, R191, R193). -/
def withTriple (cfg : Config) (s : State) (k : (T E S : Nat) → Run) : Run :=
  let T := s.inputs.time.val cfg
  let E := s.inputs.epoch.val cfg
  let S := s.inputs.timeStep.val cfg
  if S = 0 then Run.fail .zeroStep s
  else if T < E then Run.fail .timeBeforeEpoch s
  else k T E S

/-- totp_counter(), then hotp_core on the counter, with TCOUNT written beside the code (rules R180, R183, R186). -/
def totpCore (cfg : Config) (alg : Alg) (s : State) : Run :=
  withTriple cfg s fun T E S =>
    let t := (T - E) / S
    (hotpCore cfg alg t s).andThen fun s' => Run.ok (s'.setTcount cfg t)

/-- The procedure TOTP (rule R184). -/
def totpProc (cfg : Config) (s : State) : Run :=
  withAlg s fun alg => totpCore cfg alg s

/-- TOTP (rule R184). -/
def execTotp (s : State) : Host.Outcome State Fault Refusal :=
  .next (complete (totpProc Config.chip s))

/-- The procedure TOTP_B32 (rule R185): the decode comes before the time checks. -/
def totpB32Proc (cfg : Config) (s : State) : Run :=
  withAlg s fun alg => (decodeText cfg s).andThen fun s' => totpCore cfg alg s'

/-- TOTP_B32 (rule R185). -/
def execTotpB32 (s : State) : Host.Outcome State Fault Refusal :=
  .next (complete (totpB32Proc Config.chip s))

/-- expire() (rule R190): the window's end as an exact integer, refused by OVERFLOW when it is no W_MF-bit value. -/
def expireProc (cfg : Config) (s : State) : Run :=
  withTriple cfg s fun T E S =>
    let d := T - E
    let r := E + (d - d % S) + S
    if r > 2 ^ cfg.wMf - 1 then Run.fail .overflow s else Run.ok (s.setExpiry cfg r)

/-- EXPIRE (rule R195). -/
def execExpire (s : State) : Host.Outcome State Fault Refusal :=
  .next (complete (expireProc Config.chip s))

end Sys2Proof.Machine
end

