-- ==== Sys2Proof/Machine/Dispatch.lean ====
section
/-! DEFINITION. One arm per command: the dispatch of 40_command_cycle.md rule R116, each arm the command's completion. -/

namespace Sys2Proof.Machine

def exec (i : Instr) (s : State) : Host.Outcome State Fault Refusal :=
  match i with
  | .nop => Sys2Proof.Machine.execNop s
  | .b32dec => Sys2Proof.Machine.execB32dec s
  | .hotp => Sys2Proof.Machine.execHotp s
  | .hotpB32 => Sys2Proof.Machine.execHotpB32 s
  | .totp => Sys2Proof.Machine.execTotp s
  | .totpB32 => Sys2Proof.Machine.execTotpB32 s
  | .expire => Sys2Proof.Machine.execExpire s
  | .zeroize => Sys2Proof.Machine.execZeroize s
  | .illegal w => Sys2Proof.Machine.execIllegal w s

end Sys2Proof.Machine
end

