-- ==== Sys2Proof/WellFormed.lean ====
section
/-! DEFINITION. Which instruction terms stand for a command word: only `illegal` carries a field, and its word must be
one that no legal row of rule R91 matches. -/

namespace Sys2Proof

/-- A word is illegal when a bit of [31:4] is set (rule R92), or when OP is 0x8 to 0xF (rule R93). -/
def Word.isIllegal (w : Word) : Bool :=
  w.extractLsb' 4 28 != 0 || 8 ≤ (w.extractLsb' 0 4).toNat

/-- The well-formed instruction terms: the word that `illegal` keeps is an illegal one. -/
def Instr.wellFormed : Instr → Bool
  | .illegal w => Word.isIllegal w
  | .nop | .b32dec | .hotp | .hotpB32 | .totp | .totpB32 | .expire | .zeroize => true

end Sys2Proof
end

