-- ==== Sys2Proof/Decode.lean ====
section
/-! DEFINITION. From command words to commands and back (30_encoding.md rules R90 to R93, R100, R101). -/

namespace Sys2Proof

/-- Decoding is total (rule R100): a set bit of [31:4] makes the word ILLEGAL, else OP selects the row of rule R91, and
OP 0x8 to 0xF is ILLEGAL. ILLEGAL is the rejection, by its own name, and keeps the word. -/
def decode (w : Word) : Instr :=
  if w.extractLsb' 4 28 ≠ 0 then .illegal w
  else
    match (w.extractLsb' 0 4).toNat with
    | 0x0 => .nop
    | 0x1 => .b32dec
    | 0x2 => .hotp
    | 0x3 => .hotpB32
    | 0x4 => .totp
    | 0x5 => .totpB32
    | 0x6 => .expire
    | 0x7 => .zeroize
    | _ => .illegal w

/-- The command word of an instruction, from the opcode map of rule R91: RSV = 0 and OP as the table has it. -/
def encode : Instr → Word
  | .nop => 0x00000000
  | .b32dec => 0x00000001
  | .hotp => 0x00000002
  | .hotpB32 => 0x00000003
  | .totp => 0x00000004
  | .totpB32 => 0x00000005
  | .expire => 0x00000006
  | .zeroize => 0x00000007
  | .illegal w => w

/-- The instruction the decoder reads from a word that spec/opcode_table.json numbers: a command is one 32-bit word
(rule R101), and bit i of the table is bit i of the bus data. A number that is no 32-bit word is no command. -/
def decodeTableWord (nbits w : Nat) : Option Instr :=
  if nbits ≤ 32 ∧ w < 2 ^ 32 then some (decode (BitVec.ofNat 32 w)) else none

end Sys2Proof
end

