-- ==== Sys2Proof/Machine/Bus.lean ====
section
/-! DEFINITION. The register window and the host's transactions (20_memory.md), and one move of the host's program. -/

namespace Sys2Proof.Machine

/-! ## The address map (rule R61) -/

/-- The 22 registers in the order of their offsets, one per word from offset 0x000 (rule R61, 10_state.md §2). -/
def regMap : List Reg :=
  [.id, .params, .ctrl, .cmd, .status, .policy, .keyLen, .textLen, .counterLo, .counterHi, .timeLo, .timeHi,
    .epochLo, .epochHi, .stepLo, .stepHi, .codeLen, .codeVal, .tcountLo, .tcountHi, .expiryLo, .expiryHi]

/-- Does the offset lie in the buffer? -/
def inBuffer (cfg : Config) (b : Buffer) (o : Nat) : Bool :=
  bufferBase b ≤ o && o < bufferBase b + bufferSize cfg b

/-- The bytes of a bus word, one byte lane each: 4 at W_BUS = 32 (rules R8, R62). -/
def lanes (cfg : Config) : Nat := cfg.wBus / 8

/-- What an offset names, `none` for an unmapped or misaligned one (rules R61, R67). -/
def target (cfg : Config) (off : Offset) : Option Target :=
  let o := off.toNat
  if o % lanes cfg ≠ 0 then none
  else
    match regMap[o / lanes cfg]? with
    | some r => some (.reg r)
    | none =>
      if inBuffer cfg .code o then some (.word .code ((o - bufferBase .code) / lanes cfg))
      else if inBuffer cfg .key o then some (.word .key ((o - bufferBase .key) / lanes cfg))
      else if inBuffer cfg .text o then some (.word .text ((o - bufferBase .text) / lanes cfg))
      else none

/-- The window offset of a platform bus address: the 4 KiB from QOTP_BASE (rule R60). -/
def windowOffset (cfg : Config) (addr : Nat) : Option Offset :=
  if cfg.qotpBase ≤ addr ∧ addr < cfg.qotpBase + 0x1000 then some (BitVec.ofNat 12 (addr - cfg.qotpBase)) else none

/-! ## Transactions -/

/-- The bytes of a bus word, lane 0 first (rule R62). -/
def wordBytes (cfg : Config) (v : Word) : List Byte :=
  (List.range (lanes cfg)).map fun j => v.extractLsb' (8 * j) 8

/-- The number that bytes stand for, lane 0 first: B[0] + B[1]*2^8 + B[2]*2^16 + … (rule R62). -/
def laneValue : List Byte → Nat
  | [] => 0
  | b :: bs => b.toNat + 2 ^ 8 * laneValue bs

/-- Word `k` of a buffer, byte 4k in the lowest lane (rule R62). -/
def State.readWord (cfg : Config) (b : Buffer) (k : Nat) (s : State) : Word :=
  BitVec.ofNat 32 (laneValue (s.mem.bytes (bufferBase b + lanes cfg * k) (lanes cfg)))

/-- The state after the bytes of word `k` of a buffer are stored (rule R62). -/
def State.writeWord (cfg : Config) (b : Buffer) (k : Nat) (v : Word) (s : State) : State :=
  { s with mem := s.mem.store (bufferBase b + lanes cfg * k) (wordBytes cfg v) }

/-- BusRead(off): data and response; no state changes (rule R63). -/
def busRead (cfg : Config) (off : Offset) (s : State) : Word × Resp :=
  match target cfg off with
  | none => (0, .busErr)
  | some (.reg r) => (s.readReg cfg r, .okay)
  | some (.word b k) => (s.readWord cfg b k, .okay)

/-- A write that BUSY blocks: dropped with IGN set while a command is pending, else `f` (rule R65). -/
def unlessBusy (s : State) (f : State → State) : State :=
  if s.status.busy then { s with status := s.status.ignored } else f s

/-- A BusWrite of `v` to a mapped word (rule R64). -/
def writeTarget (cfg : Config) (t : Target) (v : Word) (s : State) : State :=
  match t with
  | .reg r =>
    match regAccess r with
    | .readOnly => s
    | .statusW1C => { s with status := s.status.w1c v }
    | .control => { s with ie := v[0] }
    | .command => unlessBusy s fun s => s.issue cfg v
    | .input => unlessBusy s fun s => { s with inputs := s.inputs.store r v }
  | .word .code _ => s
  | .word .key k => unlessBusy s fun s => s.writeWord cfg .key k v
  | .word .text k => unlessBusy s fun s => s.writeWord cfg .text k v

/-- BusWrite(off, v): the state after it and its response (rule R64). -/
def busWrite (cfg : Config) (off : Offset) (v : Word) (s : State) : State × Resp :=
  match target cfg off with
  | none => (s, .busErr)
  | some t => (writeTarget cfg t v s, .okay)

/-! ## The host's program -/

/-- The host has performed the first operation of its program and got `r` back; `rest` is left. -/
def State.reply (r : BusReply) (rest : List HostOp) (s : State) : State :=
  { s with env := { s.env with program := rest, replies := r :: s.env.replies } }

/-- One poll of WAIT: a BusRead of STATUS, and the loop goes on while bit 0 of the data is 1 (rule R99). -/
def poll (cfg : Config) (rest : List HostOp) (s : State) : State :=
  let r := busRead cfg (regOffset .status) s
  s.reply (.read r.1 r.2) (if r.1[0] then .wait :: rest else rest)

/-- One transaction of the host, the next of its program (rules R72, R98); nothing once the program has ended. -/
def hostMove (cfg : Config) (s : State) : State :=
  match s.env.program with
  | [] => s
  | .rd off :: rest =>
    let r := busRead cfg off s
    s.reply (.read r.1 r.2) rest
  | .wr off v :: rest =>
    let r := busWrite cfg off v s
    r.1.reply (.write r.2) rest
  | .wait :: rest => poll cfg rest s

end Sys2Proof.Machine
end

