-- ==== Sys2Proof/Machine/Schedule.lean ====
section
/-! DEFINITION. Which agent moves next (00_scope.md rule R14, 20_memory.md rule R72), what the engine runs when it moves,
and how a command word comes to be pending from outside. -/

namespace Sys2Proof.Machine

/-- The enabled move of an instant: the engine's only when BUSY = 1 (rule R113), else nothing moves. -/
inductive Move where
  | engine
  | host
  | reset
  | idle
deriving DecidableEq, Repr

/-- The move a turn of an agent comes to. -/
def moveOf (s : State) : Turn → Move
  | .engine => if s.status.busy then .engine else .idle
  | .host => .host
  | .reset => .reset

/-- The state with the turns that are left. -/
def State.withTurns (ts : List Turn) (s : State) : State :=
  { s with env := { s.env with turns := ts } }

/-- Who moves now, and the state with that turn taken. Where `turns` says nothing more, a pending command completes, so
that no run holds BUSY for ever (rule R120); otherwise the host goes on with its program, and with none left the
machine waits. -/
def takeTurn (s : State) : Move × State :=
  match s.env.turns with
  | t :: ts => (moveOf s t, s.withTurns ts)
  | [] =>
    if s.status.busy then (.engine, s)
    else if s.env.program = [] then (.idle, s)
    else (.host, s)

/-- The command that a completion runs: the decoding of `pending` (rules R114, R116). -/
def State.command (s : State) : Instr :=
  decode s.pending

/-- The state in which a word has been written to CMD and the engine's completion is the next move. -/
def issueNow (cfg : Config) (w : Word) (s : State) : State :=
  (s.issue cfg w).withTurns []

end Sys2Proof.Machine
end

