-- ==== Sys2Proof/Machine/Step.lean ====
section
/-! DEFINITION. One step of the machine: one event of rule R213's total order, a completion, a host transaction or a
reset. -/

namespace Sys2Proof.Machine

/-- One step: the agent whose turn it is moves. The engine's move is the completion of the pending command; the host's is
one transaction; reset is the platform's. With nothing enabled the machine waits, its state unchanged (rule R240). -/
def step (s : State) : Host.Outcome State Fault Refusal :=
  match takeTurn s with
  | (.engine, s') => exec s'.command s'
  | (.host, s') => .next (hostMove Config.chip s')
  | (.reset, s') => .next (hardReset s')
  | (.idle, s') => .next s'

/-- The state in which the very next step runs the command word whose bits are `w`: that word has just been issued
(rule R112) and the engine moves next. A command is one word, so `nbits` is at most 32; bits above are 0 (log entry 6). -/
def State.withFetchWord (s : State) (_nbits w : Nat) : State :=
  issueNow Config.chip (BitVec.ofNat 32 w) s

end Sys2Proof.Machine
end

