-- ==== Sys2Proof/Machine/Program.lean ====
section
/-! DEFINITION. The pseudo-instructions of 30_encoding.md rule R99, each as the transactions it stands for. -/

namespace Sys2Proof.Machine

/-- The two registers of a 64-bit value (rule R95). -/
def pairRegs : Pair → Reg × Reg
  | .counter => (.counterLo, .counterHi)
  | .time => (.timeLo, .timeHi)
  | .epoch => (.epochLo, .epochHi)
  | .step => (.stepLo, .stepHi)
  | .tcount => (.tcountLo, .tcountHi)
  | .expiry => (.expiryLo, .expiryHi)

/-- `ISSUE <mnemonic>`. -/
def issueOp (i : Instr) : List HostOp := [.wr (regOffset .cmd) (encode i)]

/-- `WR64 <X>, <v>`: the low half, then the high half. -/
def wr64 (x : Pair) (v : DWord) : List HostOp :=
  [.wr (regOffset (pairRegs x).1) (v.extractLsb' 0 32), .wr (regOffset (pairRegs x).2) (v.extractLsb' 32 32)]

/-- `RD64 <X>`. -/
def rd64 (x : Pair) : List HostOp :=
  [.rd (regOffset (pairRegs x).1), .rd (regOffset (pairRegs x).2)]

/-- `WAIT`. -/
def waitOp : List HostOp := [.wait]

/-- `ACK`: clears DONE and IGN. -/
def ackOp : List HostOp := [.wr (regOffset .status) 0x0000000A]

/-- The bus word of up to four bytes, lane 0 first, zero-padded (rule R62). -/
def packWord (bs : List Byte) : Word :=
  bs.getD 3 0 ++ bs.getD 2 0 ++ bs.getD 1 0 ++ bs.getD 0 0

/-- `WRBYTES <buf>, <bytes>`: one WR per 4 bytes, the last word zero-padded. -/
def wrBytes (b : Buffer) (bs : List Byte) : List HostOp :=
  (List.range ((bs.length + 3) / 4)).map fun k =>
    .wr (BitVec.ofNat 12 (bufferBase b + 4 * k)) (packWord (bs.drop (4 * k)))

/-- `SETPOL d, min, max, alg`. -/
def setPol (d dmin dmax alg : Nat) : List HostOp :=
  [.wr (regOffset .policy) (BitVec.ofNat 32 (alg * 2 ^ 24 + dmax * 2 ^ 16 + dmin * 2 ^ 8 + d))]

end Sys2Proof.Machine
end

