-- ==== Sys2Proof/Safety.lean ====
section
/-! DEFINITION. The terms in which claims about the machine are made: what the spec's rules promise of a state, of an
outcome and of a run, written from the rules and not by the machine's own functions where the rules allow it. -/

namespace Sys2Proof.Safety

open Sys2Proof.Machine

/-! ## Promises about a state -/

/-- The STATUS invariants of 10_state.md rule R48, in the rule's order. -/
abbrev StatusOk (st : Status) : Prop :=
  (st.busy = true → st.done = false ∧ st.fail = false ∧ st.cause = 0)
    ∧ (st.fail = false → st.cause = 0)
    ∧ (st.fail = true → st.busy = false ∧ 0x1 ≤ st.cause.toNat ∧ st.cause.toNat ≤ 0xD)
    ∧ (st.done = true → st.busy = false)

/-- Every result register and every byte of CODE is 0: what issue leaves (rule R112) and every failure keeps (rule
R211). -/
abbrev ResultsClear (s : State) : Prop :=
  s.results = { codeLen := 0, codeVal := 0, tcount := { lo := 0, hi := 0 }, expiry := { lo := 0, hi := 0 } }
    ∧ ∀ i < 16, s.mem.read (0x080 + i) = 0

/-- The number that decimal characters stand for, the most significant first. -/
def decimalValue (cs : List Byte) : Nat :=
  cs.foldl (fun n c => 10 * n + (c.toNat - 0x30)) 0

/-- CODE shows `d` decimal characters of value `val`, and 0 in every byte after them (rules R41, R160). -/
abbrev CodeShows (m : Memory) (d val : Nat) : Prop :=
  (∀ i < d, 0x30 ≤ (m.read (0x080 + i)).toNat ∧ (m.read (0x080 + i)).toNat ≤ 0x39)
    ∧ decimalValue (m.bytes 0x080 d) = val
    ∧ ∀ i < 16, d ≤ i → m.read (0x080 + i) = 0

/-- An offset at which a byte of the buffers can be other than 0: CODE below CODE_CAP, KEY and TEXT (rules R39 to
R41, R61). -/
abbrev BufferOffset (a : Nat) : Prop :=
  (0x080 ≤ a ∧ a < 0x08A) ∨ (0x100 ≤ a ∧ a < 0x180) ∨ (0x200 ≤ a ∧ a < 0x2C0)

/-- The machine's invariant: STATUS as rule R48 says; the memory canonical and listing nothing outside the buffers, which
is the model's form of them (log entry 7); a pending command or a failure leaves no result (rules R112, R211); CODE shows CODE_VAL in CODE_LEN <= CODE_CAP
characters, CODE_VAL < 2^31 (rules R35, R41); no word is pending while idle (rules R43, R114). -/
structure Inv (s : State) : Prop where
  status : StatusOk s.status
  memory : s.mem.wf
  mapped : ∀ c ∈ s.mem, BufferOffset c.1
  cleared : s.status.busy = true ∨ s.status.fail = true → ResultsClear s
  codeLen : s.results.codeLen.toNat ≤ 10
  codeVal : s.results.codeVal.toNat < 2 ^ 31
  code : CodeShows s.mem s.results.codeLen.toNat s.results.codeVal.toNat
  idle : s.status.busy = false → s.pending = 0

/-! ## Outcomes of a command -/

/-- `s` after a completion with outcome ok that wrote nothing but STATUS and `pending` (rule R114). -/
def completedOk (s : State) : State :=
  { s with
    status := { busy := false, done := true, fail := false, ign := s.status.ign, cause := 0 }
    pending := 0 }

/-- `s` after a completion with outcome fail(k) that wrote nothing but STATUS and `pending` (rules R114, R214). -/
def completedFail (k : Cause) (s : State) : State :=
  { s with
    status := { busy := false, done := true, fail := true, ign := s.status.ign, cause := k.code }
    pending := 0 }

/-- The commands that decode TEXT, and with it write KEY and KEY_LEN (rule R139). -/
def decodesText : Instr → Bool
  | .b32dec | .hotpB32 | .totpB32 => true
  | .nop | .hotp | .totp | .expire | .zeroize | .illegal _ => false

/-- The commands that end in hotp_core (rule R161). -/
def hashes : Instr → Bool
  | .hotp | .hotpB32 | .totp | .totpB32 => true
  | .nop | .b32dec | .expire | .zeroize | .illegal _ => false

/-- R64 of a pair, as the rule writes it (rule R95). -/
def pairValue (x : Reg64) : Nat := 2 ^ 32 * x.hi.toNat + x.lo.toNat

/-- The secret and digit checks of hotp_core pass: a KEY_LEN from 1 to KEY_CAP, DMIN <= DIGITS <= DMAX, DIGITS at most
CODE_CAP (rules R153 to R155). -/
abbrev CoreChecksPass (s : State) : Prop :=
  1 ≤ s.inputs.keyLen.toNat ∧ s.inputs.keyLen.toNat ≤ 128
    ∧ s.inputs.policy.dmin.toNat ≤ s.inputs.policy.digits.toNat
    ∧ s.inputs.policy.digits.toNat ≤ s.inputs.policy.dmax.toNat
    ∧ s.inputs.policy.digits.toNat ≤ 10

/-- The time triple is one that yields a counter: STEP nonzero and EPOCH <= TIME (rules R181, R182). -/
abbrev TripleOk (s : State) : Prop :=
  pairValue s.inputs.timeStep ≠ 0 ∧ pairValue s.inputs.epoch ≤ pairValue s.inputs.time

/-- The secret, read byte by byte: KEY[0..KEY_LEN) (rule R94). -/
def secretBytes (s : State) : List Byte :=
  (List.range s.inputs.keyLen.toNat).map fun i => s.mem.read (0x100 + i)

/-- The text, read byte by byte: TEXT[0..TEXT_LEN) (rule R94). -/
def textBytes (s : State) : List Byte :=
  (List.range s.inputs.textLen.toNat).map fun i => s.mem.read (0x200 + i)

/-- A 64-bit counter's 8 bytes, the most significant first (rule R150). -/
def bigEndian8 (c : DWord) : List Byte :=
  [c.extractLsb' 56 8, c.extractLsb' 48 8, c.extractLsb' 40 8, c.extractLsb' 32 8,
    c.extractLsb' 24 8, c.extractLsb' 16 8, c.extractLsb' 8 8, c.extractLsb' 0 8]

/-- The 31-bit value of dynamic truncation, as bits: four bytes from the last byte's low nibble on, the first without
its sign bit (rule R157). -/
def truncatedValue (h : List Byte) : Nat :=
  let offset := ((h.getLastD 0) &&& 0x0F).toNat
  (((h.getD offset 0) &&& 0x7F) ++ h.getD (offset + 1) 0 ++ h.getD (offset + 2) 0 ++ h.getD (offset + 3) 0).toNat

/-- What a hash command leaves that passed every check before the HMAC request, for the answer `h` of the unit (rules
R156 to R160, R164, R186). `s` is the state its core ran in, `len` the digest's HASHLEN, and `tc` the value TCOUNT takes
on ok. A hash of the right length gives the code; one of another length the failure HASH_LEN, with no result written. -/
structure HashOutcome (len : Nat) (tc : Reg64) (h : List Byte) (s t : State) : Prop where
  inputs : t.inputs = s.inputs
  ie : t.ie = s.ie
  pending : t.pending = 0
  right : h.length = len →
    t.status = { busy := false, done := true, fail := false, ign := s.status.ign, cause := 0 }
      ∧ t.results.codeLen = s.inputs.policy.digits
      ∧ t.results.codeVal.toNat = truncatedValue h % 10 ^ s.inputs.policy.digits.toNat
      ∧ t.results.tcount = tc
      ∧ t.results.expiry = s.results.expiry
      ∧ (∀ i < s.inputs.policy.digits.toNat, t.mem.read (0x080 + i) =
          BitVec.ofNat 8 (0x30 + t.results.codeVal.toNat / 10 ^ (s.inputs.policy.digits.toNat - 1 - i) % 10))
      ∧ ∀ a, ¬(0x080 ≤ a ∧ a < 0x080 + s.inputs.policy.digits.toNat) → t.mem.read a = s.mem.read a
  wrong : h.length ≠ len →
    t.status = { busy := false, done := true, fail := true, ign := s.status.ign, cause := 0xB }
      ∧ t.results = s.results
      ∧ t.mem = s.mem

/-- The environment is as it was but for one request at the HMAC port, the newest of its trace (rule R151). -/
abbrev Requested (r : HmacRequest) (s t : State) : Prop :=
  t.env = { s.env with hmacRequests := r :: s.env.hmacRequests }

/-- KEY holds `out`, zero-filled to KEY_CAP, and KEY_LEN its length: the decode step's writes (rule R139). -/
abbrev KeyHolds (out : List Byte) (t : State) : Prop :=
  t.inputs.keyLen.toNat = out.length ∧ ∀ i < 128, t.mem.read (0x100 + i) = out.getD i 0

/-- `s` with KEY holding `out`, zero-filled to KEY_CAP, and KEY_LEN its length; every byte outside KEY and all else as
in `s` (rule R139). -/
structure KeyWritten (out : List Byte) (s t : State) : Prop where
  holds : KeyHolds out t
  outside : ∀ a, ¬(0x100 ≤ a ∧ a < 0x180) → t.mem.read a = s.mem.read a
  inputs : t.inputs = { s.inputs with keyLen := t.inputs.keyLen }
  rest : t = { s with inputs := t.inputs, mem := t.mem }

/-! ## The checks, in the merged order of 60_exceptions.md rule R212 -/

/-- The digest a code of POLICY.ALG names, and its HASHLEN; 3 is reserved (rules R4, R27). -/
def digestOf (code : BitVec 2) : Option (Alg × Nat) :=
  if code = 0 then some (.sha1, 20)
  else if code = 1 then some (.sha256, 32)
  else if code = 2 then some (.sha512, 64)
  else none

/-- The commands with a time triple (rules R180, R190). -/
def readsTime : Instr → Bool
  | .totp | .totpB32 | .expire => true
  | .nop | .b32dec | .hotp | .hotpB32 | .zeroize | .illegal _ => false

/-- The decode step of a command runs: the command decodes, and neither BAD_ALG nor the length check of TEXT stops it
first (ranks 2 and 3 of rule R212; rules R138, R152). -/
def decodeRuns (i : Instr) (s : State) : Bool :=
  decodesText i && !(hashes i && decide (s.inputs.policy.alg = 3)) && decide (s.inputs.textLen.toNat ≤ 192)

/-- The bytes that the decode step writes to KEY: what TEXT decodes to, none where it does not decode (rule R139). -/
def decodedBytes (s : State) : List Byte :=
  match b32decode (textBytes s) with
  | .ok out => out
  | .error _ => []

/-- The index of the current window (rule R183). -/
def windowIndex (s : State) : Nat :=
  (pairValue s.inputs.time - pairValue s.inputs.epoch) / pairValue s.inputs.timeStep

/-- The end of the current window, as an integer (rule R192). -/
def windowEnd (s : State) : Nat :=
  pairValue s.inputs.epoch + windowIndex s * pairValue s.inputs.timeStep + pairValue s.inputs.timeStep

/-- The secret a hash command's core uses: the decoded text for the _B32 commands, else KEY[0..KEY_LEN) (rule R94). -/
def coreSecret (i : Instr) (s : State) : List Byte :=
  if decodesText i then decodedBytes s else secretBytes s

/-- The counter a hash command's core uses: the window's index for the TOTP commands, else COUNTER (rules R162, R184). -/
def coreCounter (i : Instr) (s : State) : DWord :=
  if readsTime i then BitVec.ofNat 64 (windowIndex s) else s.inputs.counter.hi ++ s.inputs.counter.lo

/-- The HMAC unit's answer to the request of a hash command, for the digest of POLICY (rules R151, R161); empty where
POLICY names none. -/
def coreHash (i : Instr) (s : State) : List Byte :=
  match digestOf s.inputs.policy.alg with
  | none => []
  | some (alg, _) => Config.hmacUnit alg (coreSecret i s) (bigEndian8 (coreCounter i s))

/-- Is the command ILLEGAL (rank 1 of rule R212)? -/
def isIllegal : Instr → Bool
  | .illegal _ => true
  | .nop | .b32dec | .hotp | .hotpB32 | .totp | .totpB32 | .expire | .zeroize => false

/-- The decode of TEXT fails with `k` (rank 4 of rule R212). -/
def decodeFailsWith (k : Cause) (s : State) : Bool :=
  match b32decode (textBytes s) with
  | .ok _ => false
  | .error k' => decide (k' = k)

/-- A row of the table of rule R212: the commands the check applies to, when it fails, and the cause it reports. -/
def rank (applies fails : Bool) (k : Cause) : Bool × Cause := (applies && fails, k)

/-- The ranks 1 to 7 of rule R212; rank 4 has a row for each of its causes, of which a text has at most one. -/
def ranksBeforeCore (i : Instr) (s : State) : List (Bool × Cause) :=
  [rank (isIllegal i) true .illegalCmd,
    rank (hashes i) (decide (s.inputs.policy.alg = 3)) .badAlg,
    rank (decodesText i) (decide (192 < s.inputs.textLen.toNat)) .lenRange,
    rank (decodesText i) (decodeFailsWith .b32Pad s) .b32Pad,
    rank (decodesText i) (decodeFailsWith .b32Char s) .b32Char,
    rank (readsTime i) (decide (pairValue s.inputs.timeStep = 0)) .zeroStep,
    rank (readsTime i) (decide (pairValue s.inputs.time < pairValue s.inputs.epoch)) .timeBeforeEpoch,
    rank (decide (i = .expire)) (decide (2 ^ 64 ≤ windowEnd s)) .overflow]

/-- The ranks 8 to 13 of rule R212: the checks of hotp_core. -/
def ranksOfCore (i : Instr) (s : State) : List (Bool × Cause) :=
  let n := (coreSecret i s).length
  let p := s.inputs.policy
  let h := coreHash i s
  [rank (hashes i) (decide (128 < n)) .lenRange,
    rank (hashes i) (decide (n = 0)) .emptySecret,
    rank (hashes i) (decide ¬(p.dmin.toNat ≤ p.digits.toNat ∧ p.digits.toNat ≤ p.dmax.toNat)) .digitPolicy,
    rank (hashes i) (decide (10 < p.digits.toNat)) .codeCap,
    rank (hashes i) (decide ((digestOf p.alg).map (·.2) ≠ some h.length)) .hashLen,
    rank (hashes i) (decide (h.length < ((h.getLastD 0) &&& 0x0F).toNat + 4)) .truncRange]

/-- The cause of the first check that fails (rule R212). -/
def firstFailure (i : Instr) (s : State) : Option Cause :=
  ((ranksBeforeCore i s ++ ranksOfCore i s).find? (·.1)).map (·.2)

/-! ## Base32, by what its symbols stand for -/

/-- The number whose base-`b` digits are `ds`, the most significant first. -/
def digitsValue (b : Nat) (ds : List Nat) : Nat :=
  ds.foldl (fun n d => b * n + d) 0

/-- The 32 symbols in the order of their values (rule R130). -/
def alphabet : List Char :=
  "ABCDEFGHIJKLMNOPQRSTUVWXYZ234567".toList

/-- Is `b` the byte of a symbol, in either case, with value `v` (rules R130, R131)? -/
abbrev IsSymbol (b : Byte) (v : Nat) : Prop :=
  v < 32 ∧ ((alphabet.getD v '=').toNat = b.toNat ∨ (alphabet.getD v '=').toLower.toNat = b.toNat)

/-! ## Runs -/

/-- A run has ended: the host's program is done and no command is pending (70_reset_and_hazards.md rule R251). -/
abbrev Ended (s : State) : Prop :=
  s.env.program = [] ∧ s.status.busy = false

/-- The states a run from reset comes to, whatever program the host has and whoever moves when. -/
inductive Reachable : State → Prop where
  | start (e : Env) : Reachable { State.reset with env := e }
  | step {s t : State} : Reachable s → Machine.step s = .next t → Reachable t

/-- `n` moves of the host, one after another. -/
def hostMoves : Nat → State → State
  | 0, s => s
  | n + 1, s => hostMoves n (hostMove Config.chip s)

/-- The host performs one BusWrite and nothing else moves. -/
def afterWrite (off : Offset) (v : Word) (s : State) : State :=
  (busWrite Config.chip off v s).1

/-- What a BusRead of `off` gives in `s`. -/
def readAt (off : Offset) (s : State) : Word × Resp :=
  busRead Config.chip off s

/-! ## The window, by its offsets -/

/-- The offsets of the read-only words: ID, PARAMS, CODE_LEN to EXPIRY_HI, and CODE (10_state.md §2). -/
abbrev ReadOnlyOffset (a : Nat) : Prop :=
  a % 4 = 0 ∧ (a ≤ 0x004 ∨ (0x040 ≤ a ∧ a < 0x058) ∨ (0x080 ≤ a ∧ a < 0x090))

/-- The offsets of the input registers POLICY to STEP_HI (10_state.md §2). -/
abbrev InputOffset (a : Nat) : Prop :=
  a % 4 = 0 ∧ 0x014 ≤ a ∧ a < 0x040

/-- The offsets of the words of KEY and TEXT (10_state.md §2). -/
abbrev DataOffset (a : Nat) : Prop :=
  a % 4 = 0 ∧ ((0x100 ≤ a ∧ a < 0x180) ∨ (0x200 ≤ a ∧ a < 0x2C0))

/-- The offsets that name nothing: unmapped, or misaligned (rules R61, R67). -/
abbrev NoTarget (a : Nat) : Prop :=
  a % 4 ≠ 0 ∨ (0x058 ≤ a ∧ a < 0x080) ∨ (0x090 ≤ a ∧ a < 0x100) ∨ (0x180 ≤ a ∧ a < 0x200) ∨ 0x2C0 ≤ a

/-- The bits of an input register that hold state: POLICY [25:0], KEY_LEN and TEXT_LEN [7:0], the others whole
(rules R27, R29 to R34, R42). -/
def inputMask (off : Offset) : Word :=
  if off = 0x014 then 0x03FFFFFF else if off = 0x018 ∨ off = 0x01C then 0x000000FF else 0xFFFFFFFF

end Sys2Proof.Safety
end

