-- ==== Sys2Proof/Certificates/Slice0/Obligations.lean ====
section
/-! DEFINITION. The statements for the provers, each with the rule of spec/ it formalises. -/

open Sys2Proof Sys2Proof.Machine Sys2Proof.Safety

/-! ## Encoding -/

/-- Decoding the word of a well-formed instruction gives the instruction back, ILLEGAL with every illegal word
(rules R91, R100); that ILLEGAL keeps its word is the model's choice (log entry 11). -/
def Obligations.DecodeEncodeRoundTrip : Prop :=
  ∀ i : Instr, i.wellFormed = true → decode (encode i) = i

/-- Rule R100: the eight legal words decode as the table says, and every other word is ILLEGAL. -/
def Obligations.ExactlyEightWordsAreLegal : Prop :=
  decode 0x0 = .nop ∧ decode 0x1 = .b32dec ∧ decode 0x2 = .hotp ∧ decode 0x3 = .hotpB32 ∧ decode 0x4 = .totp
    ∧ decode 0x5 = .totpB32 ∧ decode 0x6 = .expire ∧ decode 0x7 = .zeroize
    ∧ ∀ w : Word, 8 ≤ w.toNat → ∃ v, decode w = .illegal v

/-- Words of 95_test_vectors.md §2.1, bit by bit (that ILLEGAL keeps its word: log entry 11). -/
def Obligations.SpecWordsDecode : Prop :=
  decode 0b00000000000000000000000000000010#32 = .hotp
    ∧ decode 0b00000000000000000000000000000101#32 = .totpB32
    ∧ decode 0b00000000000000000000000000001000#32 = .illegal 8
    ∧ decode 0b00000000000000000000000000010010#32 = .illegal 0x12
    ∧ decode 0b10000000000000000000000000000010#32 = .illegal 0x80000002

/-! ## The step -/

/-- Rules R113, R114, R116: while BUSY = 1, the engine's move is the completion of the command that `pending` decodes
to, and nothing is added around it. With no turn left to take, a pending command completes (log entry 3). -/
def Obligations.StepRunsPendingCommand : Prop :=
  ∀ (s : State) (i : Instr) (ts : List Turn), s.status.busy = true → decode s.pending = i →
    (s.env.turns = .engine :: ts → step s = exec i { s with env := { s.env with turns := ts } })
      ∧ (s.env.turns = [] → step s = exec i s)

/-- Rule R113: the engine never steps while BUSY = 0; its turn then passes with the state unchanged, and a machine with
nothing to do waits (log entry 3). -/
def Obligations.IdleEngineDoesNotStep : Prop :=
  ∀ (s : State) (ts : List Turn), s.status.busy = false →
    (s.env.turns = .engine :: ts → step s = .next { s with env := { s.env with turns := ts } })
      ∧ (s.env.turns = [] → s.env.program = [] → step s = .next s)

/-- Rules R63, R68: a BusRead changes no state of the engine; it gives the host the word as it stands. That the reply is
kept, and that the host moves on its turn, is the model's form (log entries 3 and 12). -/
def Obligations.ReadTransactionChangesNothing : Prop :=
  ∀ (s : State) (off : Offset) (rest : List HostOp) (ts : List Turn),
    s.env.turns = .host :: ts → s.env.program = .rd off :: rest →
      step s = .next { s with env :=
        { s.env with
          program := rest
          turns := ts
          replies := .read (readAt off s).1 (readAt off s).2 :: s.env.replies } }

/-- Rule R64: a BusWrite is one move of the host, and its response goes to the host alone (rule R216). The
program and the replies are the model's form (log entries 3 and 12). -/
def Obligations.WriteTransactionIsOneMove : Prop :=
  ∀ (s : State) (off : Offset) (v : Word) (rest : List HostOp) (ts : List Turn),
    s.env.turns = .host :: ts → s.env.program = .wr off v :: rest →
      ∃ t, step s = .next t
        ∧ { t with env := s.env } = afterWrite off v s
        ∧ t.env = { s.env with
            program := rest
            turns := ts
            replies := .write (if NoTarget off.toNat then .busErr else .okay) :: s.env.replies }

/-- Rule R99: WAIT polls STATUS and goes on exactly when bit 0 of the data reads 0; a poll changes no engine state. The
program and the replies are the model's form (log entries 3 and 12). -/
def Obligations.WaitPollsUntilNotBusy : Prop :=
  ∀ (s : State) (rest : List HostOp) (ts : List Turn),
    s.env.turns = .host :: ts → s.env.program = .wait :: rest →
      ∃ t, step s = .next t ∧ { t with env := s.env } = s
        ∧ t.env.program = (if s.status.busy = true then .wait :: rest else rest)
        ∧ t.env.replies = .read (readAt 0x010 s).1 .okay :: s.env.replies

/-- Rules R240, R241: a reset, also one while BUSY = 1, leaves every piece of engine state at its reset value; nothing of
the pending command appears. That a reset keeps what stands outside the engine is the model's choice (log entry 5). -/
def Obligations.ResetAbandonsPendingCommand : Prop :=
  ∀ (s : State) (ts : List Turn), s.env.turns = .reset :: ts →
    step s = .next { State.reset with env := { s.env with turns := ts } }

/-- An ISSUE of a well-formed instruction, followed by the engine's turn, runs that instruction (rules R99, R112,
R114; the turns are log entry 3). -/
def Obligations.IssuedInstructionRuns : Prop :=
  ∀ (i : Instr) (s : State) (rest : List HostOp) (ts : List Turn),
    i.wellFormed = true → s.status.busy = false →
    s.env.program = issueOp i ++ rest → s.env.turns = .host :: .engine :: ts →
      ∃ u, step s = .next u ∧ u.status.busy = true ∧ u.env.program = rest
        ∧ step u = exec i { u with env := { u.env with turns := ts } }

/-! ## Reset -/

/-- Rule R47, and the constants of rules R21 and R22: what every piece of state is after reset. -/
def Obligations.ResetValues : Prop :=
  readAt 0x000 State.reset = (0x514F5450, .okay) ∧ readAt 0x004 State.reset = (0x010AC080, .okay)
    ∧ State.reset.ie = false
    ∧ State.reset.status = { busy := false, done := false, fail := false, ign := false, cause := 0 }
    ∧ readAt 0x014 State.reset = (0x00080606, .okay)
    ∧ State.reset.inputs.keyLen = 0 ∧ State.reset.inputs.textLen = 0
    ∧ pairValue State.reset.inputs.counter = 0 ∧ pairValue State.reset.inputs.time = 0
    ∧ pairValue State.reset.inputs.epoch = 0 ∧ pairValue State.reset.inputs.timeStep = 30
    ∧ ResultsClear State.reset
    ∧ (∀ i < 128, State.reset.mem.read (0x100 + i) = 0) ∧ (∀ i < 192, State.reset.mem.read (0x200 + i) = 0)
    ∧ State.reset.pending = 0 ∧ State.reset.irq = false

/-! ## The bus -/

/-- Rules R67 and R216: a misaligned or unmapped read returns (0, BUSERR), such a write has no effect at all and
returns BUSERR; every other offset answers OKAY. -/
def Obligations.BusErrorExactlyOffTheMap : Prop :=
  ∀ (off : Offset) (v : Word) (s : State),
    (NoTarget off.toNat → readAt off s = (0, .busErr) ∧ busWrite Config.chip off v s = (s, .busErr))
      ∧ (¬NoTarget off.toNat → (readAt off s).2 = .okay ∧ (busWrite Config.chip off v s).2 = .okay)

/-- What each register reads as: its fields at their bits, the reserved bits 0 (10_state.md §2, rules R24, R25, R27,
R42). -/
def Obligations.RegisterReads : Prop :=
  ∀ s : State,
    readAt 0x000 s = (0x514F5450, .okay) ∧ readAt 0x004 s = (0x010AC080, .okay)
      ∧ (readAt 0x008 s).1.toNat = s.ie.toNat ∧ readAt 0x00C s = (0, .okay)
      ∧ (readAt 0x010 s).1.toNat = s.status.busy.toNat + 2 * s.status.done.toNat + 4 * s.status.fail.toNat
          + 8 * s.status.ign.toNat + 2 ^ 8 * s.status.cause.toNat
      ∧ (readAt 0x014 s).1.toNat = s.inputs.policy.digits.toNat + 2 ^ 8 * s.inputs.policy.dmin.toNat
          + 2 ^ 16 * s.inputs.policy.dmax.toNat + 2 ^ 24 * s.inputs.policy.alg.toNat
      ∧ (readAt 0x018 s).1.toNat = s.inputs.keyLen.toNat ∧ (readAt 0x01C s).1.toNat = s.inputs.textLen.toNat
      ∧ readAt 0x020 s = (s.inputs.counter.lo, .okay) ∧ readAt 0x024 s = (s.inputs.counter.hi, .okay)
      ∧ readAt 0x028 s = (s.inputs.time.lo, .okay) ∧ readAt 0x02C s = (s.inputs.time.hi, .okay)
      ∧ readAt 0x030 s = (s.inputs.epoch.lo, .okay) ∧ readAt 0x034 s = (s.inputs.epoch.hi, .okay)
      ∧ readAt 0x038 s = (s.inputs.timeStep.lo, .okay) ∧ readAt 0x03C s = (s.inputs.timeStep.hi, .okay)
      ∧ (readAt 0x040 s).1.toNat = s.results.codeLen.toNat ∧ readAt 0x044 s = (s.results.codeVal, .okay)
      ∧ readAt 0x048 s = (s.results.tcount.lo, .okay) ∧ readAt 0x04C s = (s.results.tcount.hi, .okay)
      ∧ readAt 0x050 s = (s.results.expiry.lo, .okay) ∧ readAt 0x054 s = (s.results.expiry.hi, .okay)

/-- Rule R62: a buffer word packs four bytes little-endian, in the read of all three buffers and in the write of KEY and
TEXT while no command is pending. -/
def Obligations.BufferWordsPackLittleEndian : Prop :=
  ∀ (off : Offset) (v : Word) (s : State),
    (DataOffset off.toNat ∨ (off.toNat % 4 = 0 ∧ 0x080 ≤ off.toNat ∧ off.toNat < 0x090) →
      (readAt off s).1.toNat = (s.mem.read off.toNat).toNat + (s.mem.read (off.toNat + 1)).toNat * 2 ^ 8
        + (s.mem.read (off.toNat + 2)).toNat * 2 ^ 16 + (s.mem.read (off.toNat + 3)).toNat * 2 ^ 24)
    ∧ (DataOffset off.toNat → s.status.busy = false →
      (∀ j < 4, (afterWrite off v s).mem.read (off.toNat + j) = v.extractLsb' (8 * j) 8)
        ∧ (∀ a, ¬(off.toNat ≤ a ∧ a < off.toNat + 4) → (afterWrite off v s).mem.read a = s.mem.read a)
        ∧ { afterWrite off v s with mem := s.mem } = s)

/-- A write to an input register, or to a word of KEY or TEXT, while no command is pending, is stored: it reads back with
its reserved bits 0 (rules R28 to R34, R39, R40, R42, R64). -/
def Obligations.InputWriteReadsBack : Prop :=
  ∀ (off : Offset) (v : Word) (s : State), s.status.busy = false →
    (InputOffset off.toNat → readAt off (afterWrite off v s) = (v &&& inputMask off, .okay))
      ∧ (DataOffset off.toNat → readAt off (afterWrite off v s) = (v, .okay))

/-- Each such write changes only the word it names: every other word of the window reads as before, and the hidden state
and the environment are as before (rule R64). -/
def Obligations.InputWriteTouchesOneWord : Prop :=
  ∀ (off off' : Offset) (v : Word) (s : State), s.status.busy = false →
    InputOffset off.toNat ∨ DataOffset off.toNat → off ≠ off' →
      readAt off' (afterWrite off v s) = readAt off' s
        ∧ (afterWrite off v s).pending = s.pending ∧ (afterWrite off v s).env = s.env

/-- Rule R65: while BUSY = 1 a write to CMD, to an input register or to a word of KEY or TEXT sets IGN and does nothing
else; writes to STATUS and CTRL are not blocked, and writes to read-only words neither act nor set IGN. -/
def Obligations.WritesWhileBusyAreDropped : Prop :=
  ∀ (off : Offset) (v : Word) (s : State), s.status.busy = true →
    (off = 0x00C ∨ InputOffset off.toNat ∨ DataOffset off.toNat →
      busWrite Config.chip off v s = ({ s with status := { s.status with ign := true } }, .okay))
    ∧ (off = 0x008 → busWrite Config.chip off v s = ({ s with ie := v[0] }, .okay))
    ∧ (off = 0x010 → busWrite Config.chip off v s =
        ({ s with status := { s.status with
            done := s.status.done && !v[1]
            ign := s.status.ign && !v[3] } }, .okay))
    ∧ (ReadOnlyOffset off.toNat → busWrite Config.chip off v s = (s, .okay))

/-- Rule R66: a write to a read-only register or a CODE word is ignored, with response OKAY and IGN not set; a write
to CMD is a command issue, not a store, and CMD reads back as 0. -/
def Obligations.ReadOnlyWritesAreIgnored : Prop :=
  ∀ (off : Offset) (v : Word) (s : State),
    (ReadOnlyOffset off.toNat → busWrite Config.chip off v s = (s, .okay))
      ∧ (s.status.busy = false → (afterWrite 0x00C v s).status.busy = true ∧ (afterWrite 0x00C v s).pending = v)
      ∧ readAt 0x00C (afterWrite 0x00C v s) = (0, .okay)

/-- Rule R26: what a write to STATUS does, and nothing else, also while BUSY = 1. -/
def Obligations.StatusWriteClearsDoneAndIgn : Prop :=
  ∀ (v : Word) (s : State), busWrite Config.chip 0x010 v s =
    ({ s with status :=
        { s.status with
          done := if v[1] = true then false else s.status.done
          ign := if v[3] = true then false else s.status.ign } }, .okay)

/-- Rule R23: a write to CTRL sets IE to bit 0, also while BUSY = 1, and nothing else; the reserved bits read 0. -/
def Obligations.CtrlWriteSetsInterruptEnable : Prop :=
  ∀ (v : Word) (s : State), busWrite Config.chip 0x008 v s = ({ s with ie := v[0] }, .okay)
    ∧ readAt 0x008 (afterWrite 0x008 v s) = (v &&& 1, .okay)

/-- Rule R112: a write to CMD while BUSY = 0 issues the command, whatever the word, and does to the state what
the rule lists and nothing else. -/
def Obligations.IssueLatchesAndClears : Prop :=
  ∀ (w : Word) (s : State), s.status.busy = false →
    ∃ t, busWrite Config.chip 0x00C w s = (t, .okay)
      ∧ t.pending = w
      ∧ t.status = { busy := true, done := false, fail := false, ign := s.status.ign, cause := 0 }
      ∧ ResultsClear t
      ∧ t.ie = s.ie ∧ t.inputs = s.inputs ∧ t.env = s.env
      ∧ (∀ a, ¬(0x080 ≤ a ∧ a < 0x090) → t.mem.read a = s.mem.read a)
      ∧ t.irq = false

/-- Rules R46 and R217: irq is DONE and IE; it is IE after a completion, ok or fail, and falls with a W1C of DONE, with
the next issue, with IE = 0 and with reset. -/
def Obligations.IrqFollowsDoneAndEnable : Prop :=
  (∀ s : State, s.irq = (s.status.done && s.ie))
    ∧ (∀ (i : Instr) (s t : State), exec i s = .next t → t.irq = s.ie)
    ∧ (∀ (v : Word) (s : State), v[1] = true → (afterWrite 0x010 v s).irq = false)
    ∧ (∀ (w : Word) (s : State), s.status.busy = false → (afterWrite 0x00C w s).irq = false)
    ∧ (∀ (v : Word) (s : State), v[0] = false →
        (afterWrite 0x008 v s).irq = false ∧ (afterWrite 0x008 v s).status = s.status)
    ∧ ∀ s : State, (hardReset s).irq = false

/-- Rule R213's two examples: a W1C of DONE, and a CMD write, before and after the completion. -/
def Obligations.CompletionOrdersWithWrites : Prop :=
  ∀ (i : Instr) (w : Word) (s t : State), s.status.busy = true → s.status.done = false → exec i s = .next t →
    (∃ t', exec i (afterWrite 0x010 0x2 s) = .next t' ∧ t'.status.done = true)
      ∧ (afterWrite 0x010 0x2 t).status.done = false
      ∧ (∃ t', exec i (afterWrite 0x00C w s) = .next t' ∧ t'.status.busy = false ∧ t'.status.ign = true)
      ∧ (afterWrite 0x00C w t).status.busy = true ∧ (afterWrite 0x00C w t).pending = w

/-! ## Every command -/

/-- Rule R114: every command completes, with BUSY 0, DONE 1, FAIL and CAUSE as its outcome gives them (CAUSE = 0 exactly
when ok, else a code 0x1 to 0xD), and no word pending. -/
def Obligations.EveryCommandCompletes : Prop :=
  ∀ (i : Instr) (s : State), ∃ t, exec i s = .next t
    ∧ t.status.busy = false ∧ t.status.done = true ∧ t.status.ign = s.status.ign ∧ t.pending = 0
    ∧ (t.status.fail = false ↔ t.status.cause = 0) ∧ t.status.cause.toNat ≤ 0xD

/-- Rule R210's codes, as STATUS shows them: a failure reads 0x6 + code * 2^8 where IGN = 0 (95_test_vectors.md,
conventions), and each cause has its code. -/
def Obligations.CauseCodesInStatus : Prop :=
  [Cause.illegalCmd, .badAlg, .lenRange, .b32Char, .b32Pad, .emptySecret, .digitPolicy, .codeCap, .zeroStep,
      .timeBeforeEpoch, .hashLen, .truncRange, .overflow].map Cause.code
    = [0x1, 0x2, 0x3, 0x4, 0x5, 0x6, 0x7, 0x8, 0x9, 0xA, 0xB, 0xC, 0xD]
    ∧ ∀ (k : Cause) (s : State), s.status.ign = false →
        (readAt 0x010 (completedFail k s)).1.toNat = 0x6 + k.code.toNat * 2 ^ 8

/-- Rule R212: a command reports exactly one cause, that of the first check that fails in the merged order, and is ok
when none fails. -/
def Obligations.CauseIsFirstFailingCheck : Prop :=
  ∀ (i : Instr) (s : State), ∃ t, exec i s = .next t
    ∧ match firstFailure i s with
      | none => t.status.fail = false ∧ t.status.cause = 0
      | some k => t.status.fail = true ∧ t.status.cause = k.code

/-- Rule R157: TRUNC_RANGE cannot occur, because the length check comes first. -/
def Obligations.TruncRangeIsNeverReported : Prop :=
  ∀ (i : Instr) (s t : State), exec i s = .next t → t.status.cause ≠ 0xC

/-- Rule R211: every failure leaves the results at 0, as the issue left them. -/
def Obligations.FailureLeavesResultsClear : Prop :=
  ∀ (i : Instr) (s t : State), exec i s = .next t → t.status.fail = true →
    t.results = s.results ∧ (∀ j < 16, t.mem.read (0x080 + j) = s.mem.read (0x080 + j))
      ∧ (ResultsClear s → ResultsClear t)

/-- Rule R214: failures are precise. A failing command changes only STATUS and `pending`, and KEY and KEY_LEN exactly as
its decode step writes them where that runs: not where the command decodes nothing, and not where BAD_ALG (rule R152) or
the length of TEXT (rule R138) stopped it first. The request it may have made at the HMAC port is no state of the engine;
that the environment keeps a trace of it, and all else, is the model's form (log entry 4). -/
def Obligations.FailuresArePrecise : Prop :=
  ∀ (i : Instr) (s t : State), exec i s = .next t → t.status.fail = true →
    t.ie = s.ie ∧ t.results = s.results
      ∧ t.inputs = { s.inputs with keyLen := t.inputs.keyLen }
      ∧ (∀ a, ¬(0x100 ≤ a ∧ a < 0x180) → t.mem.read a = s.mem.read a)
      ∧ (decodeRuns i s = false → t.inputs = s.inputs ∧ t.mem = s.mem)
      ∧ (decodeRuns i s = true → KeyHolds (decodedBytes s) t)
      ∧ { t.env with hmacRequests := s.env.hmacRequests } = s.env

/-- The registers a command leaves unchanged (the writes column of rule R91). Written are: by every command STATUS but
IGN, and `pending`; by a command whose decode step runs KEY_LEN; by ZEROIZE KEY_LEN and TEXT_LEN; by the hash commands
CODE_LEN and CODE_VAL; by the TOTP commands TCOUNT; by EXPIRE EXPIRY. That the environment keeps all but the HMAC port's
trace, and a command that does not hash all of it, is the model's form (log entry 4, DESIGN CHOICE). -/
def Obligations.CommandRegisterFrame : Prop :=
  ∀ (i : Instr) (s t : State), exec i s = .next t →
    t.ie = s.ie ∧ t.status.ign = s.status.ign
      ∧ t.inputs.policy = s.inputs.policy ∧ t.inputs.counter = s.inputs.counter ∧ t.inputs.time = s.inputs.time
      ∧ t.inputs.epoch = s.inputs.epoch ∧ t.inputs.timeStep = s.inputs.timeStep
      ∧ (i ≠ .zeroize → t.inputs.textLen = s.inputs.textLen)
      ∧ (i ≠ .zeroize → decodeRuns i s = false → t.inputs.keyLen = s.inputs.keyLen)
      ∧ (hashes i = false → t.results.codeLen = s.results.codeLen ∧ t.results.codeVal = s.results.codeVal)
      ∧ (i ≠ .totp → i ≠ .totpB32 → t.results.tcount = s.results.tcount)
      ∧ (i ≠ .expire → t.results.expiry = s.results.expiry)
      ∧ { t.env with hmacRequests := s.env.hmacRequests } = s.env
      ∧ (hashes i = false → t.env = s.env)

/-- The bytes of memory a command leaves unchanged: all but CODE[0..DIGITS) for an ok hash command, KEY for a command whose
decode step runs and ZEROIZE, TEXT for ZEROIZE (rules R91, R138, R139, R152, R164, R201). -/
def Obligations.CommandMemoryFrame : Prop :=
  ∀ (i : Instr) (s t : State) (a : Nat), exec i s = .next t →
    ¬(hashes i = true ∧ t.status.fail = false
        ∧ 0x080 ≤ a ∧ a < 0x080 + s.inputs.policy.digits.toNat) →
    ¬((decodeRuns i s = true ∨ i = .zeroize) ∧ 0x100 ≤ a ∧ a < 0x180) →
    ¬(i = .zeroize ∧ 0x200 ≤ a ∧ a < 0x2C0) →
      t.mem.read a = s.mem.read a

/-- Rules R15, R39, R40: the outcome of a command is a function of its inputs alone. Two states after issue that agree on
the input registers, on KEY[0..KEY_LEN) and on TEXT[0..TEXT_LEN) give the same results, the same FAIL and CAUSE and the
same secret, whatever else differs. -/
def Obligations.OutcomeDependsOnInputsAlone : Prop :=
  ∀ (i : Instr) (s s' t t' : State),
    s.inputs = s'.inputs → ResultsClear s → ResultsClear s' →
    (∀ j < s.inputs.keyLen.toNat, j < 128 → s.mem.read (0x100 + j) = s'.mem.read (0x100 + j)) →
    (∀ j < s.inputs.textLen.toNat, j < 192 → s.mem.read (0x200 + j) = s'.mem.read (0x200 + j)) →
    exec i s = .next t → exec i s' = .next t' →
      t.results = t'.results ∧ t.inputs = t'.inputs
        ∧ t.status.fail = t'.status.fail ∧ t.status.cause = t'.status.cause
        ∧ (∀ j < 16, t.mem.read (0x080 + j) = t'.mem.read (0x080 + j))
        ∧ ∀ j < t.inputs.keyLen.toNat, j < 128 → t.mem.read (0x100 + j) = t'.mem.read (0x100 + j)

/-- Rules R110 and R74: no host transaction between issue and completion can change what the command does. However many
moves the host makes, the command stays pending and its results, inputs, buffers, FAIL and CAUSE are the same. -/
def Obligations.BusyIntervalCannotChangeOutcome : Prop :=
  ∀ (n : Nat) (i : Instr) (s t : State), s.status.busy = true → exec i s = .next t →
    (hostMoves n s).status.busy = true ∧ (hostMoves n s).pending = s.pending
      ∧ ∃ t', exec i (hostMoves n s) = .next t'
        ∧ t'.results = t.results ∧ t'.inputs = t.inputs ∧ t'.mem = t.mem
        ∧ t'.status.fail = t.status.fail ∧ t'.status.cause = t.status.cause

/-- Rule R151 and decision D39: at most one request at the HMAC port for a command, and only by a hash command whose
earlier checks passed; its key has 1 to KEY_CAP bytes and its message 8. The trace of requests is the model's own (log
entry 4). -/
def Obligations.AtMostOneHmacRequest : Prop :=
  ∀ (i : Instr) (s t : State), exec i s = .next t →
    t.env.hmacRequests = s.env.hmacRequests
      ∨ (hashes i = true ∧ (t.status.fail = false ∨ t.status.cause = 0xB)
          ∧ ∃ r, t.env.hmacRequests = r :: s.env.hmacRequests
            ∧ 1 ≤ r.key.length ∧ r.key.length ≤ 128 ∧ r.msg.length = 8)

/-! ## Control commands -/

/-- Rule R200: NOP completes ok and reads and writes nothing else. -/
def Obligations.NopCompletesOk : Prop :=
  ∀ s : State, exec .nop s = .next (completedOk s)

/-- Rule R117: a word that is no legal command completes with ILLEGAL_CMD, and no input is read or written. -/
def Obligations.IllegalWordFails : Prop :=
  ∀ (w : Word) (s : State),
    exec (.illegal w) s = .next (completedFail .illegalCmd s) ∧ Cause.code .illegalCmd = 0x1
      ∧ (w.extractLsb' 4 28 ≠ 0 ∨ 8 ≤ (w.extractLsb' 0 4).toNat → ∃ v, decode w = .illegal v)

/-- Rule R201: ZEROIZE clears KEY, TEXT and both lengths, completes ok, and changes nothing else. -/
def Obligations.ZeroizeErasesSecrets : Prop :=
  ∀ s : State, ∃ t, exec .zeroize s = .next t
    ∧ (∀ i < 128, t.mem.read (0x100 + i) = 0) ∧ (∀ i < 192, t.mem.read (0x200 + i) = 0)
    ∧ (∀ a, ¬(0x100 ≤ a ∧ a < 0x180) → ¬(0x200 ≤ a ∧ a < 0x2C0) → t.mem.read a = s.mem.read a)
    ∧ { t with mem := s.mem } = completedOk { s with inputs := { s.inputs with keyLen := 0, textLen := 0 } }

/-! ## Base32 -/

/-- Rules R130 and R131: a byte is folded to a symbol of value v exactly when it is that symbol's ASCII byte, in either
case; and folding changes no byte but 'a' to 'z'. -/
def Obligations.SymbolTable : Prop :=
  ∀ b : Byte, (∀ v : Nat, symbolValue (foldCase b) = some v ↔ IsSymbol b v)
    ∧ foldCase b = if 0x61 ≤ b.toNat ∧ b.toNat ≤ 0x7A then b - 0x20 else b

/-- Rules R133, R135 to R137, R141: a text of symbols and then any number of '=' decodes to floor(5s/8) bytes, which are
the leading bits of the symbols' values, the leftover bits dropped. The empty text and one of '=' alone are ok. -/
def Obligations.Base32BytesAreTheLeadingBits : Prop :=
  ∀ (ts : List Byte) (vs : List Nat) (p : Nat), List.Forall₂ IsSymbol ts vs →
    ∃ out, b32decode (ts ++ List.replicate p 0x3D) = .ok out
      ∧ out.length = 5 * ts.length / 8
      ∧ digitsValue 256 (out.map (·.toNat)) = digitsValue 32 vs / 2 ^ (5 * ts.length % 8)

/-- Rules R132 and R133: the first bad byte decides. After symbols alone, a byte that is neither '=' nor a symbol is
B32_CHAR; after a '=', any byte but '=' is B32_PAD, whatever follows. -/
def Obligations.Base32FirstBadByteDecides : Prop :=
  ∀ (ts : List Byte) (vs : List Nat) (b : Byte) (p : Nat) (rest : List Byte),
    List.Forall₂ IsSymbol ts vs → b ≠ 0x3D →
      ((∀ v, ¬IsSymbol b v) → b32decode (ts ++ b :: rest) = .error .b32Char)
        ∧ b32decode (ts ++ List.replicate (p + 1) 0x3D ++ b :: rest) = .error .b32Pad

/-- Rules R139 and R140: B32DEC of a text that decodes writes KEY and KEY_LEN and completes ok, whatever POLICY is. -/
def Obligations.B32decWritesKey : Prop :=
  ∀ (s : State) (out : List Byte), s.inputs.textLen.toNat ≤ 192 → b32decode (textBytes s) = .ok out →
    ∃ t, exec .b32dec s = .next t ∧ KeyWritten out (completedOk s) t

/-- Rules R138 to R140: a failed decode leaves KEY all zero and KEY_LEN 0; a TEXT_LEN above 192 fails with nothing
written. -/
def Obligations.B32decFailures : Prop :=
  ∀ s : State,
    (∀ k, s.inputs.textLen.toNat ≤ 192 → b32decode (textBytes s) = .error k →
      ∃ t, exec .b32dec s = .next t ∧ KeyWritten [] (completedFail k s) t)
    ∧ (192 < s.inputs.textLen.toNat → exec .b32dec s = .next (completedFail .lenRange s))

/-! ## HOTP and TOTP -/

/-- Rule R150: the counter's message is its 8 bytes, most significant first, and stands for the counter. -/
def Obligations.CounterMessageIsBigEndian : Prop :=
  ∀ c : DWord, counterBytes Config.chip c.toNat = bigEndian8 c
    ∧ digitsValue 256 ((counterBytes Config.chip c.toNat).map (·.toNat)) = c.toNat

/-- Rules R157 and R158: truncation of a hash reads four bytes from the last byte's low nibble on, without the sign bit,
where they lie in the hash, and fails where they do not; the value is below 2^31. -/
def Obligations.TruncationReadsTheWindow : Prop :=
  ∀ h : List Byte,
    (((h.getLastD 0) &&& 0x0F).toNat + 4 ≤ h.length → truncate h = some (truncatedValue h))
      ∧ (h.length < ((h.getLastD 0) &&& 0x0F).toNat + 4 → truncate h = none)
      ∧ truncatedValue h < 2 ^ 31

/-- Rules R159 and R160: a value below 10^digits renders as exactly `digits` decimal characters that stand for it. -/
def Obligations.RenderedDigitsStandForTheValue : Prop :=
  ∀ digits val : Nat, val < 10 ^ digits →
    (renderDigits digits val).length = digits ∧ decimalValue (renderDigits digits val) = val
      ∧ ∀ c ∈ renderDigits digits val, 0x30 ≤ c.toNat ∧ c.toNat ≤ 0x39

/-- Rules R156 to R160 and R164: whatever the HMAC unit answers, an answer of the digest's length gives the code and one
of any other length, empty, short or long, the failure HASH_LEN. -/
def Obligations.AnyHmacAnswerIsChecked : Prop :=
  ∀ (s : State) (alg : Alg) (len : Nat) (h : List Byte),
    digestOf s.inputs.policy.alg = some (alg, len) → s.inputs.policy.digits.toNat ≤ 10 →
    HashOutcome len s.results.tcount h s (complete (hashStages Config.chip alg h s))

/-- Rules R161, R162, R164: HOTP on a secret of 1 to 128 bytes, a legal digest and a satisfied policy asks the HMAC unit
once and completes as `HashOutcome` says, with the counter COUNTER and TCOUNT as it was. The record of the request is the
model's own (log entry 4). -/
def Obligations.HotpComputesCode : Prop :=
  ∀ (s : State) (alg : Alg) (len : Nat), digestOf s.inputs.policy.alg = some (alg, len) → CoreChecksPass s →
    ∃ t, exec .hotp s = .next t
      ∧ Requested ⟨alg, secretBytes s, bigEndian8 (s.inputs.counter.hi ++ s.inputs.counter.lo)⟩ s t
      ∧ HashOutcome len s.results.tcount
          (Config.hmacUnit alg (secretBytes s) (bigEndian8 (s.inputs.counter.hi ++ s.inputs.counter.lo))) s t

/-- Rules R183, R184, R186: TOTP does the same with the counter floor((TIME - EPOCH) / STEP), which TCOUNT takes on ok.
The record of the request is the model's own (log entry 4). -/
def Obligations.TotpComputesCode : Prop :=
  ∀ (s : State) (alg : Alg) (len : Nat), digestOf s.inputs.policy.alg = some (alg, len) → CoreChecksPass s →
    TripleOk s →
    ∃ (t : State) (tc : Reg64), exec .totp s = .next t ∧ pairValue tc = windowIndex s
      ∧ Requested ⟨alg, secretBytes s, bigEndian8 (tc.hi ++ tc.lo)⟩ s t
      ∧ HashOutcome len tc (Config.hmacUnit alg (secretBytes s) (bigEndian8 (tc.hi ++ tc.lo))) s t

/-- Rule R163: HOTP_B32 of a text that decodes to `out` writes KEY and KEY_LEN, then is HOTP on that secret. The
record of the request is the model's own (log entry 4). -/
def Obligations.HotpB32ComputesCode : Prop :=
  ∀ (s : State) (out : List Byte) (alg : Alg) (len : Nat),
    digestOf s.inputs.policy.alg = some (alg, len) → s.inputs.textLen.toNat ≤ 192 →
    b32decode (textBytes s) = .ok out → out ≠ [] →
    s.inputs.policy.dmin.toNat ≤ s.inputs.policy.digits.toNat →
    s.inputs.policy.digits.toNat ≤ s.inputs.policy.dmax.toNat → s.inputs.policy.digits.toNat ≤ 10 →
    ∃ (u t : State), exec .hotpB32 s = .next t ∧ KeyWritten out s u ∧ secretBytes u = out
      ∧ Requested ⟨alg, out, bigEndian8 (s.inputs.counter.hi ++ s.inputs.counter.lo)⟩ u t
      ∧ HashOutcome len s.results.tcount
          (Config.hmacUnit alg out (bigEndian8 (s.inputs.counter.hi ++ s.inputs.counter.lo))) u t

/-- Rule R185: TOTP_B32 of a text that decodes to `out` writes KEY and KEY_LEN, then is TOTP on that secret. The
record of the request is the model's own (log entry 4). -/
def Obligations.TotpB32ComputesCode : Prop :=
  ∀ (s : State) (out : List Byte) (alg : Alg) (len : Nat),
    digestOf s.inputs.policy.alg = some (alg, len) → s.inputs.textLen.toNat ≤ 192 →
    b32decode (textBytes s) = .ok out → out ≠ [] → TripleOk s →
    s.inputs.policy.dmin.toNat ≤ s.inputs.policy.digits.toNat →
    s.inputs.policy.digits.toNat ≤ s.inputs.policy.dmax.toNat → s.inputs.policy.digits.toNat ≤ 10 →
    ∃ (u t : State) (tc : Reg64), exec .totpB32 s = .next t ∧ KeyWritten out s u ∧ secretBytes u = out
      ∧ pairValue tc = windowIndex s
      ∧ Requested ⟨alg, out, bigEndian8 (tc.hi ++ tc.lo)⟩ u t
      ∧ HashOutcome len tc (Config.hmacUnit alg out (bigEndian8 (tc.hi ++ tc.lo))) u t

/-- Rules R163 and R185: a _B32 command, with a legal digest, is its decode and then the byte-secret form: where B32DEC
is ok it answers what HOTP or TOTP answers on the KEY and KEY_LEN that B32DEC writes, and where B32DEC fails it answers
what B32DEC answers. So the Base32 text of a secret gives the secret's code. With ALG = 3 it fails with BAD_ALG before
any decode, and KEY and KEY_LEN stay (rule R152). -/
def Obligations.B32VariantsDelegate : Prop :=
  ∀ s t : State, exec .b32dec s = .next t →
    (s.inputs.policy.alg ≠ 3 → t.status.fail = false →
      exec .hotpB32 s = exec .hotp { s with inputs := t.inputs, mem := t.mem }
        ∧ exec .totpB32 s = exec .totp { s with inputs := t.inputs, mem := t.mem })
    ∧ (s.inputs.policy.alg ≠ 3 → t.status.fail = true → exec .hotpB32 s = .next t ∧ exec .totpB32 s = .next t)
    ∧ (s.inputs.policy.alg = 3 → exec .hotpB32 s = .next (completedFail .badAlg s)
        ∧ exec .totpB32 s = .next (completedFail .badAlg s))

/-- Rule R184: TOTP delegates to HOTP with the derived counter and all other parameters unchanged: everything but COUNTER
and TCOUNT is what HOTP leaves with that counter in COUNTER. -/
def Obligations.TotpDelegatesToHotp : Prop :=
  ∀ (s t u : State) (c : Reg64), s.inputs.policy.alg ≠ 3 → TripleOk s → pairValue c = windowIndex s →
    exec .totp s = .next t → exec .hotp { s with inputs := { s.inputs with counter := c } } = .next u →
      { t with results := { t.results with tcount := s.results.tcount } }
          = { u with inputs := { u.inputs with counter := s.inputs.counter } }
        ∧ t.inputs.counter = s.inputs.counter
        ∧ t.results.tcount = if t.status.fail = true then s.results.tcount else c

/-- Rule R165: with DIGITS = 0 and DMIN = 0 the HMAC request is still made and checked, and the command completes ok with
an empty code. The record of the request is the model's own (log entry 4). -/
def Obligations.ZeroDigitsGiveAnEmptyCode : Prop :=
  ∀ (s : State) (alg : Alg) (len : Nat), digestOf s.inputs.policy.alg = some (alg, len) →
    s.inputs.policy.digits = 0 → s.inputs.policy.dmin = 0 →
    1 ≤ s.inputs.keyLen.toNat → s.inputs.keyLen.toNat ≤ 128 → ResultsClear s →
    ∃ t r, exec .hotp s = .next t ∧ t.env.hmacRequests = r :: s.env.hmacRequests
      ∧ ResultsClear t
      ∧ (if (Config.hmacUnit alg r.key r.msg).length = len then t.status.fail = false ∧ t.status.cause = 0
          else t.status.fail = true ∧ t.status.cause = 0xB)

/-! ## EXPIRE -/

/-- Rules R190, R192 and R195: on a triple with STEP nonzero, EPOCH <= TIME and a window end that fits 64 bits, EXPIRE
completes ok, EXPIRY takes the window's end, and nothing else changes. -/
def Obligations.ExpireComputesWindowEnd : Prop :=
  ∀ s : State, TripleOk s → windowEnd s < 2 ^ 64 →
    ∃ r : Reg64, pairValue r = windowEnd s
      ∧ exec .expire s = .next (completedOk { s with results := { s.results with expiry := r } })

/-- Rules R191, R193 and R194: EXPIRE's failures, in their order; OVERFLOW exactly when T - (d mod S) + S >= 2^64. -/
def Obligations.ExpireFailures : Prop :=
  ∀ s : State,
    (pairValue s.inputs.timeStep = 0 → exec .expire s = .next (completedFail .zeroStep s))
      ∧ (pairValue s.inputs.timeStep ≠ 0 → pairValue s.inputs.time < pairValue s.inputs.epoch →
          exec .expire s = .next (completedFail .timeBeforeEpoch s))
      ∧ (TripleOk s →
          (exec .expire s = .next (completedFail .overflow s) ↔
            2 ^ 64 ≤ pairValue s.inputs.time
              - (pairValue s.inputs.time - pairValue s.inputs.epoch) % pairValue s.inputs.timeStep
              + pairValue s.inputs.timeStep))

/-- Rule R196: an ok EXPIRE's result is after TIME, a whole number of steps from EPOCH, at most one step after TIME, and
the least such instant. -/
def Obligations.ExpiryIsTheNextBoundary : Prop :=
  ∀ s t : State, exec .expire s = .next t → t.status.fail = false →
    pairValue s.inputs.time < pairValue t.results.expiry
      ∧ (pairValue t.results.expiry - pairValue s.inputs.epoch) % pairValue s.inputs.timeStep = 0
      ∧ pairValue t.results.expiry - pairValue s.inputs.timeStep ≤ pairValue s.inputs.time
      ∧ ∀ r, pairValue s.inputs.time < r → (r - pairValue s.inputs.epoch) % pairValue s.inputs.timeStep = 0 →
          pairValue t.results.expiry ≤ r

/-! ## Progress -/

/-- Rule R120's progress, by the model's schedule (log entry 3): within one step more than the turns that are laid down,
a pending command has completed or been abandoned by a reset. -/
def Obligations.PendingCommandEnds : Prop :=
  ∀ s : State, s.status.busy = true →
    ∃ k t, k ≤ s.env.turns.length + 1 ∧ Sys2Proof.core.run k s = .next t ∧ t.status.busy = false

/-! ## The invariants -/

/-- Rule R48: the STATUS invariants hold after reset, every step keeps them from any state that meets them, and so they
are true in every reachable state. -/
def Obligations.StatusInvariantsHold : Prop :=
  StatusOk State.reset.status
    ∧ (∀ s t : State, StatusOk s.status → step s = .next t → StatusOk t.status)
    ∧ ∀ s : State, Reachable s → StatusOk s.status

/-- The machine's invariant holds at reset (rules R41, R47, R48); that memory is a canonical list that names only buffer
bytes is the model's own form of the buffers (log entry 7, DESIGN CHOICE). -/
def Obligations.InvariantAtReset : Prop :=
  Inv State.reset

/-- Every step keeps the machine's invariant, from every state that meets it (rules R35, R41, R43, R48, R112, R211); that
memory stays a canonical list that names only buffer bytes is the model's own form of the buffers (log entry 7, DESIGN
CHOICE). -/
def Obligations.StepKeepsInvariant : Prop :=
  ∀ s t : State, Inv s → step s = .next t → Inv t
end

