-- ==== Sys2Proof/Laws/State.lean ====
section
/-! SUPPORT. One lemma per field and update of State, so that no proof unfolds a record update. -/

namespace Sys2Proof.Laws

open Sys2Proof.Machine

@[simp] theorem storeBuffer_ie (s : State) (b : Buffer) (bs : List Byte) :
    (s.storeBuffer b bs).ie = s.ie := rfl
@[simp] theorem storeBuffer_status (s : State) (b : Buffer) (bs : List Byte) :
    (s.storeBuffer b bs).status = s.status := rfl
@[simp] theorem storeBuffer_inputs (s : State) (b : Buffer) (bs : List Byte) :
    (s.storeBuffer b bs).inputs = s.inputs := rfl
@[simp] theorem storeBuffer_results (s : State) (b : Buffer) (bs : List Byte) :
    (s.storeBuffer b bs).results = s.results := rfl
@[simp] theorem storeBuffer_mem (s : State) (b : Buffer) (bs : List Byte) :
    (s.storeBuffer b bs).mem = s.mem.store (bufferBase b) bs := rfl
@[simp] theorem storeBuffer_pending (s : State) (b : Buffer) (bs : List Byte) :
    (s.storeBuffer b bs).pending = s.pending := rfl
@[simp] theorem storeBuffer_env (s : State) (b : Buffer) (bs : List Byte) :
    (s.storeBuffer b bs).env = s.env := rfl

@[simp] theorem clearBuffer_ie (s : State) (cfg : Config) (b : Buffer) :
    (s.clearBuffer cfg b).ie = s.ie := rfl
@[simp] theorem clearBuffer_status (s : State) (cfg : Config) (b : Buffer) :
    (s.clearBuffer cfg b).status = s.status := rfl
@[simp] theorem clearBuffer_inputs (s : State) (cfg : Config) (b : Buffer) :
    (s.clearBuffer cfg b).inputs = s.inputs := rfl
@[simp] theorem clearBuffer_results (s : State) (cfg : Config) (b : Buffer) :
    (s.clearBuffer cfg b).results = s.results := rfl
@[simp] theorem clearBuffer_mem (s : State) (cfg : Config) (b : Buffer) :
    (s.clearBuffer cfg b).mem = s.mem.store (bufferBase b) (List.replicate (bufferSize cfg b) 0) := rfl
@[simp] theorem clearBuffer_pending (s : State) (cfg : Config) (b : Buffer) :
    (s.clearBuffer cfg b).pending = s.pending := rfl
@[simp] theorem clearBuffer_env (s : State) (cfg : Config) (b : Buffer) :
    (s.clearBuffer cfg b).env = s.env := rfl

@[simp] theorem setKeyLen_ie (s : State) (n : BitVec 8) :
    (s.setKeyLen n).ie = s.ie := rfl
@[simp] theorem setKeyLen_status (s : State) (n : BitVec 8) :
    (s.setKeyLen n).status = s.status := rfl
@[simp] theorem setKeyLen_inputs (s : State) (n : BitVec 8) :
    (s.setKeyLen n).inputs = { s.inputs with keyLen := n } := rfl
@[simp] theorem setKeyLen_results (s : State) (n : BitVec 8) :
    (s.setKeyLen n).results = s.results := rfl
@[simp] theorem setKeyLen_mem (s : State) (n : BitVec 8) :
    (s.setKeyLen n).mem = s.mem := rfl
@[simp] theorem setKeyLen_pending (s : State) (n : BitVec 8) :
    (s.setKeyLen n).pending = s.pending := rfl
@[simp] theorem setKeyLen_env (s : State) (n : BitVec 8) :
    (s.setKeyLen n).env = s.env := rfl

@[simp] theorem setTextLen_ie (s : State) (n : BitVec 8) :
    (s.setTextLen n).ie = s.ie := rfl
@[simp] theorem setTextLen_status (s : State) (n : BitVec 8) :
    (s.setTextLen n).status = s.status := rfl
@[simp] theorem setTextLen_inputs (s : State) (n : BitVec 8) :
    (s.setTextLen n).inputs = { s.inputs with textLen := n } := rfl
@[simp] theorem setTextLen_results (s : State) (n : BitVec 8) :
    (s.setTextLen n).results = s.results := rfl
@[simp] theorem setTextLen_mem (s : State) (n : BitVec 8) :
    (s.setTextLen n).mem = s.mem := rfl
@[simp] theorem setTextLen_pending (s : State) (n : BitVec 8) :
    (s.setTextLen n).pending = s.pending := rfl
@[simp] theorem setTextLen_env (s : State) (n : BitVec 8) :
    (s.setTextLen n).env = s.env := rfl

@[simp] theorem setTcount_ie (s : State) (cfg : Config) (t : Nat) :
    (s.setTcount cfg t).ie = s.ie := rfl
@[simp] theorem setTcount_status (s : State) (cfg : Config) (t : Nat) :
    (s.setTcount cfg t).status = s.status := rfl
@[simp] theorem setTcount_inputs (s : State) (cfg : Config) (t : Nat) :
    (s.setTcount cfg t).inputs = s.inputs := rfl
@[simp] theorem setTcount_results (s : State) (cfg : Config) (t : Nat) :
    (s.setTcount cfg t).results = { s.results with tcount := Reg64.ofVal cfg t } := rfl
@[simp] theorem setTcount_mem (s : State) (cfg : Config) (t : Nat) :
    (s.setTcount cfg t).mem = s.mem := rfl
@[simp] theorem setTcount_pending (s : State) (cfg : Config) (t : Nat) :
    (s.setTcount cfg t).pending = s.pending := rfl
@[simp] theorem setTcount_env (s : State) (cfg : Config) (t : Nat) :
    (s.setTcount cfg t).env = s.env := rfl

@[simp] theorem setExpiry_ie (s : State) (cfg : Config) (t : Nat) :
    (s.setExpiry cfg t).ie = s.ie := rfl
@[simp] theorem setExpiry_status (s : State) (cfg : Config) (t : Nat) :
    (s.setExpiry cfg t).status = s.status := rfl
@[simp] theorem setExpiry_inputs (s : State) (cfg : Config) (t : Nat) :
    (s.setExpiry cfg t).inputs = s.inputs := rfl
@[simp] theorem setExpiry_results (s : State) (cfg : Config) (t : Nat) :
    (s.setExpiry cfg t).results = { s.results with expiry := Reg64.ofVal cfg t } := rfl
@[simp] theorem setExpiry_mem (s : State) (cfg : Config) (t : Nat) :
    (s.setExpiry cfg t).mem = s.mem := rfl
@[simp] theorem setExpiry_pending (s : State) (cfg : Config) (t : Nat) :
    (s.setExpiry cfg t).pending = s.pending := rfl
@[simp] theorem setExpiry_env (s : State) (cfg : Config) (t : Nat) :
    (s.setExpiry cfg t).env = s.env := rfl

@[simp] theorem requestHmac_ie (s : State) (r : HmacRequest) :
    (s.requestHmac r).ie = s.ie := rfl
@[simp] theorem requestHmac_status (s : State) (r : HmacRequest) :
    (s.requestHmac r).status = s.status := rfl
@[simp] theorem requestHmac_inputs (s : State) (r : HmacRequest) :
    (s.requestHmac r).inputs = s.inputs := rfl
@[simp] theorem requestHmac_results (s : State) (r : HmacRequest) :
    (s.requestHmac r).results = s.results := rfl
@[simp] theorem requestHmac_mem (s : State) (r : HmacRequest) :
    (s.requestHmac r).mem = s.mem := rfl
@[simp] theorem requestHmac_pending (s : State) (r : HmacRequest) :
    (s.requestHmac r).pending = s.pending := rfl
@[simp] theorem requestHmac_env (s : State) (r : HmacRequest) :
    (s.requestHmac r).env = { s.env with hmacRequests := r :: s.env.hmacRequests } := rfl

@[simp] theorem issue_ie (s : State) (cfg : Config) (w : Word) :
    (s.issue cfg w).ie = s.ie := rfl
@[simp] theorem issue_status (s : State) (cfg : Config) (w : Word) :
    (s.issue cfg w).status = s.status.issued := rfl
@[simp] theorem issue_inputs (s : State) (cfg : Config) (w : Word) :
    (s.issue cfg w).inputs = s.inputs := rfl
@[simp] theorem issue_results (s : State) (cfg : Config) (w : Word) :
    (s.issue cfg w).results = Results.zero := rfl
@[simp] theorem issue_mem (s : State) (cfg : Config) (w : Word) :
    (s.issue cfg w).mem = s.mem.store (bufferBase .code) (List.replicate cfg.codeBuf 0) := rfl
@[simp] theorem issue_pending (s : State) (cfg : Config) (w : Word) :
    (s.issue cfg w).pending = w := rfl
@[simp] theorem issue_env (s : State) (cfg : Config) (w : Word) :
    (s.issue cfg w).env = s.env := rfl

@[simp] theorem setKey_ie (s : State) (cfg : Config) (out : List Byte) :
    (s.setKey cfg out).ie = s.ie := rfl
@[simp] theorem setKey_status (s : State) (cfg : Config) (out : List Byte) :
    (s.setKey cfg out).status = s.status := rfl
@[simp] theorem setKey_inputs (s : State) (cfg : Config) (out : List Byte) :
    (s.setKey cfg out).inputs = { s.inputs with keyLen := BitVec.ofNat 8 out.length } := rfl
@[simp] theorem setKey_results (s : State) (cfg : Config) (out : List Byte) :
    (s.setKey cfg out).results = s.results := rfl
@[simp] theorem setKey_mem (s : State) (cfg : Config) (out : List Byte) :
    (s.setKey cfg out).mem = s.mem.store (bufferBase .key) (zeroPad cfg.keyCap out) := rfl
@[simp] theorem setKey_pending (s : State) (cfg : Config) (out : List Byte) :
    (s.setKey cfg out).pending = s.pending := rfl
@[simp] theorem setKey_env (s : State) (cfg : Config) (out : List Byte) :
    (s.setKey cfg out).env = s.env := rfl

@[simp] theorem writeCode_ie (s : State) (digits val : Nat) :
    (s.writeCode digits val).ie = s.ie := rfl
@[simp] theorem writeCode_status (s : State) (digits val : Nat) :
    (s.writeCode digits val).status = s.status := rfl
@[simp] theorem writeCode_inputs (s : State) (digits val : Nat) :
    (s.writeCode digits val).inputs = s.inputs := rfl
@[simp] theorem writeCode_results (s : State) (digits val : Nat) :
    (s.writeCode digits val).results = { s.results with codeLen := BitVec.ofNat 8 digits, codeVal := BitVec.ofNat 32 val } := rfl
@[simp] theorem writeCode_mem (s : State) (digits val : Nat) :
    (s.writeCode digits val).mem = s.mem.store (bufferBase .code) (renderDigits digits val) := rfl
@[simp] theorem writeCode_pending (s : State) (digits val : Nat) :
    (s.writeCode digits val).pending = s.pending := rfl
@[simp] theorem writeCode_env (s : State) (digits val : Nat) :
    (s.writeCode digits val).env = s.env := rfl

@[simp] theorem writeWord_ie (s : State) (cfg : Config) (b : Buffer) (k : Nat) (v : Word) :
    (s.writeWord cfg b k v).ie = s.ie := rfl
@[simp] theorem writeWord_status (s : State) (cfg : Config) (b : Buffer) (k : Nat) (v : Word) :
    (s.writeWord cfg b k v).status = s.status := rfl
@[simp] theorem writeWord_inputs (s : State) (cfg : Config) (b : Buffer) (k : Nat) (v : Word) :
    (s.writeWord cfg b k v).inputs = s.inputs := rfl
@[simp] theorem writeWord_results (s : State) (cfg : Config) (b : Buffer) (k : Nat) (v : Word) :
    (s.writeWord cfg b k v).results = s.results := rfl
@[simp] theorem writeWord_mem (s : State) (cfg : Config) (b : Buffer) (k : Nat) (v : Word) :
    (s.writeWord cfg b k v).mem = s.mem.store (bufferBase b + lanes cfg * k) (wordBytes cfg v) := rfl
@[simp] theorem writeWord_pending (s : State) (cfg : Config) (b : Buffer) (k : Nat) (v : Word) :
    (s.writeWord cfg b k v).pending = s.pending := rfl
@[simp] theorem writeWord_env (s : State) (cfg : Config) (b : Buffer) (k : Nat) (v : Word) :
    (s.writeWord cfg b k v).env = s.env := rfl

@[simp] theorem reply_ie (s : State) (r : BusReply) (rest : List HostOp) :
    (s.reply r rest).ie = s.ie := rfl
@[simp] theorem reply_status (s : State) (r : BusReply) (rest : List HostOp) :
    (s.reply r rest).status = s.status := rfl
@[simp] theorem reply_inputs (s : State) (r : BusReply) (rest : List HostOp) :
    (s.reply r rest).inputs = s.inputs := rfl
@[simp] theorem reply_results (s : State) (r : BusReply) (rest : List HostOp) :
    (s.reply r rest).results = s.results := rfl
@[simp] theorem reply_mem (s : State) (r : BusReply) (rest : List HostOp) :
    (s.reply r rest).mem = s.mem := rfl
@[simp] theorem reply_pending (s : State) (r : BusReply) (rest : List HostOp) :
    (s.reply r rest).pending = s.pending := rfl
@[simp] theorem reply_env (s : State) (r : BusReply) (rest : List HostOp) :
    (s.reply r rest).env = { s.env with program := rest, replies := r :: s.env.replies } := rfl

@[simp] theorem withTurns_ie (s : State) (ts : List Turn) :
    (s.withTurns ts).ie = s.ie := rfl
@[simp] theorem withTurns_status (s : State) (ts : List Turn) :
    (s.withTurns ts).status = s.status := rfl
@[simp] theorem withTurns_inputs (s : State) (ts : List Turn) :
    (s.withTurns ts).inputs = s.inputs := rfl
@[simp] theorem withTurns_results (s : State) (ts : List Turn) :
    (s.withTurns ts).results = s.results := rfl
@[simp] theorem withTurns_mem (s : State) (ts : List Turn) :
    (s.withTurns ts).mem = s.mem := rfl
@[simp] theorem withTurns_pending (s : State) (ts : List Turn) :
    (s.withTurns ts).pending = s.pending := rfl
@[simp] theorem withTurns_env (s : State) (ts : List Turn) :
    (s.withTurns ts).env = { s.env with turns := ts } := rfl

@[simp] theorem complete_ie (r : Run) : (complete r).ie = r.state.ie := rfl
@[simp] theorem complete_status (r : Run) : (complete r).status = r.state.status.completed r.outcome := rfl
@[simp] theorem complete_inputs (r : Run) : (complete r).inputs = r.state.inputs := rfl
@[simp] theorem complete_results (r : Run) : (complete r).results = r.state.results := rfl
@[simp] theorem complete_mem (r : Run) : (complete r).mem = r.state.mem := rfl
@[simp] theorem complete_pending (r : Run) : (complete r).pending = 0 := rfl
@[simp] theorem complete_env (r : Run) : (complete r).env = r.state.env := rfl

@[simp] theorem hardReset_ie (s : State) : (hardReset s).ie = State.reset.ie := rfl
@[simp] theorem hardReset_status (s : State) : (hardReset s).status = State.reset.status := rfl
@[simp] theorem hardReset_inputs (s : State) : (hardReset s).inputs = State.reset.inputs := rfl
@[simp] theorem hardReset_results (s : State) : (hardReset s).results = State.reset.results := rfl
@[simp] theorem hardReset_mem (s : State) : (hardReset s).mem = State.reset.mem := rfl
@[simp] theorem hardReset_pending (s : State) : (hardReset s).pending = State.reset.pending := rfl
@[simp] theorem hardReset_env (s : State) : (hardReset s).env = s.env := rfl

@[simp] theorem issued_busy (st : Status) : (st.issued).busy = true := rfl
@[simp] theorem issued_done (st : Status) : (st.issued).done = false := rfl
@[simp] theorem issued_fail (st : Status) : (st.issued).fail = false := rfl
@[simp] theorem issued_ign (st : Status) : (st.issued).ign = st.ign := rfl
@[simp] theorem issued_cause (st : Status) : (st.issued).cause = 0 := rfl

@[simp] theorem completed_busy (st : Status) (o : Option Cause) : (st.completed o).busy = false := rfl
@[simp] theorem completed_done (st : Status) (o : Option Cause) : (st.completed o).done = true := rfl
@[simp] theorem completed_fail (st : Status) (o : Option Cause) : (st.completed o).fail = o.isSome := rfl
@[simp] theorem completed_ign (st : Status) (o : Option Cause) : (st.completed o).ign = st.ign := rfl
@[simp] theorem completed_cause (st : Status) (o : Option Cause) : (st.completed o).cause = (o.map Cause.code).getD 0 := rfl

@[simp] theorem ignored_busy (st : Status) : (st.ignored).busy = st.busy := rfl
@[simp] theorem ignored_done (st : Status) : (st.ignored).done = st.done := rfl
@[simp] theorem ignored_fail (st : Status) : (st.ignored).fail = st.fail := rfl
@[simp] theorem ignored_ign (st : Status) : (st.ignored).ign = true := rfl
@[simp] theorem ignored_cause (st : Status) : (st.ignored).cause = st.cause := rfl

@[simp] theorem w1c_busy (st : Status) (v : Word) : (st.w1c v).busy = st.busy := rfl
@[simp] theorem w1c_done (st : Status) (v : Word) : (st.w1c v).done = (st.done && !v[1]) := rfl
@[simp] theorem w1c_fail (st : Status) (v : Word) : (st.w1c v).fail = st.fail := rfl
@[simp] theorem w1c_ign (st : Status) (v : Word) : (st.w1c v).ign = (st.ign && !v[3]) := rfl
@[simp] theorem w1c_cause (st : Status) (v : Word) : (st.w1c v).cause = st.cause := rfl

@[simp] theorem run_ok_state (s : State) : (Run.ok s).state = s := rfl
@[simp] theorem run_ok_outcome (s : State) : (Run.ok s).outcome = none := rfl
@[simp] theorem run_fail_state (k : Cause) (s : State) : (Run.fail k s).state = s := rfl
@[simp] theorem run_fail_outcome (k : Cause) (s : State) : (Run.fail k s).outcome = some k := rfl
@[simp] theorem andThen_ok (s : State) (f : State → Run) : (Run.ok s).andThen f = f s := rfl
@[simp] theorem andThen_fail (k : Cause) (s : State) (f : State → Run) :
    (Run.fail k s).andThen f = Run.fail k s := rfl

/-- The parameters of the chip (rule R8). -/
@[simp] theorem chip_keyCap : Config.chip.keyCap = 128 := rfl
@[simp] theorem chip_textCap : Config.chip.textCap = 192 := rfl
@[simp] theorem chip_codeCap : Config.chip.codeCap = 10 := rfl
@[simp] theorem chip_codeBuf : Config.chip.codeBuf = 16 := rfl
@[simp] theorem chip_wMf : Config.chip.wMf = 64 := rfl
@[simp] theorem chip_wBus : Config.chip.wBus = 32 := rfl
@[simp] theorem chip_lanes : lanes Config.chip = 4 := rfl
@[simp] theorem chip_hashLen_sha1 : Config.chip.hashLen .sha1 = 20 := rfl
@[simp] theorem chip_hashLen_sha256 : Config.chip.hashLen .sha256 = 32 := rfl
@[simp] theorem chip_hashLen_sha512 : Config.chip.hashLen .sha512 = 64 := rfl
@[simp] theorem chip_rev : Config.chip.rev = 1 := rfl
@[simp] theorem chip_hmac : Config.chip.hmac = Config.hmacUnit := rfl

@[simp] theorem bufferBase_code : bufferBase .code = 0x080 := rfl
@[simp] theorem bufferBase_key : bufferBase .key = 0x100 := rfl
@[simp] theorem bufferBase_text : bufferBase .text = 0x200 := rfl
@[simp] theorem bufferSize_code (cfg : Config) : bufferSize cfg .code = cfg.codeBuf := rfl
@[simp] theorem bufferSize_key (cfg : Config) : bufferSize cfg .key = cfg.keyCap := rfl
@[simp] theorem bufferSize_text (cfg : Config) : bufferSize cfg .text = cfg.textCap := rfl

/-- Every cause has one of the codes 0x1 to 0xD (rule R210). -/
theorem cause_code_range (k : Cause) : 1 ≤ k.code.toNat ∧ k.code.toNat ≤ 0xD := by
  cases k <;> decide

theorem complete_ok_state (s : State) : complete (Run.ok s) = Safety.completedOk s := rfl

theorem complete_fail_state (k : Cause) (s : State) : complete (Run.fail k s) = Safety.completedFail k s := rfl

end Sys2Proof.Laws
end

