-- ==== Sys2Proof/Laws/Memory.lean ====
section
/-! SUPPORT. The laws of the buffers' memory: a read after a store, the canonical form, and that equal reads are equal
memories. -/

namespace Sys2Proof.Laws

open Sys2Proof.Machine

@[simp] theorem read_nil (a : Nat) : Memory.read [] a = 0 := rfl

theorem read_cons (c : Host.Cell) (m : Memory) (a : Nat) :
    Memory.read (c :: m) a = if c.1 = a then c.2 else Memory.read m a := rfl

/-- A memory that lists no cell at `a` reads 0 there. -/
theorem read_of_unlisted (m : Memory) (a : Nat) (h : ∀ c ∈ m, c.1 ≠ a) : Memory.read m a = 0 := by
  induction m with
  | nil => rfl
  | cons c m ih =>
    rw [read_cons, if_neg (h c (by simp)), ih fun d hd => h d (by simp [hd])]

theorem read_append_of_left (m n : Memory) (a : Nat) (h : ∀ c ∈ m, c.1 ≠ a) :
    Memory.read (m ++ n) a = Memory.read n a := by
  induction m with
  | nil => rfl
  | cons c m ih =>
    rw [List.cons_append, read_cons, if_neg (h c (by simp)), ih fun d hd => h d (by simp [hd])]

theorem read_append_of_right (m n : Memory) (a : Nat) (h : ∀ c ∈ n, c.1 ≠ a) :
    Memory.read (m ++ n) a = Memory.read m a := by
  induction m with
  | nil => exact read_of_unlisted n a h
  | cons c m ih => rw [List.cons_append, read_cons, read_cons, ih]

/-- Dropping cells at other offsets changes no read. -/
theorem read_filter (p : Nat → Bool) (m : Memory) (a : Nat) (h : p a = true) :
    Memory.read (m.filter fun c => p c.1) a = Memory.read m a := by
  induction m with
  | nil => rfl
  | cons c m ih =>
    by_cases hc : c.1 = a
    · rw [List.filter_cons_of_pos (by simp [hc, h]), read_cons, read_cons, if_pos hc, if_pos hc]
    · by_cases hp : p c.1 = true
      · rw [List.filter_cons_of_pos (by simpa using hp), read_cons, read_cons, ih]
      · rw [List.filter_cons_of_neg (by simpa using hp), ih, read_cons, if_neg hc]

/-- The cells of `bs` lie in its range and list no unlisted byte. -/
theorem mem_cells (base : Nat) (bs : List Byte) :
    ∀ c ∈ Memory.cells base bs, base ≤ c.1 ∧ c.1 < base + bs.length ∧ c.2 ≠ 0 := by
  induction bs generalizing base with
  | nil => intro c hc; simp [Memory.cells] at hc
  | cons b bs ih =>
    intro c hc
    have tail : c ∈ Memory.cells (base + 1) bs → base ≤ c.1 ∧ c.1 < base + (b :: bs).length ∧ c.2 ≠ 0 := by
      intro h
      obtain ⟨h1, h2, h3⟩ := ih (base + 1) c h
      simp only [List.length_cons]
      exact ⟨by omega, by omega, h3⟩
    unfold Memory.cells at hc
    split at hc
    · exact tail hc
    · rename_i hb
      rcases List.mem_cons.mp hc with rfl | h
      · simp only [List.length_cons]
        exact ⟨Nat.le_refl _, by omega, hb⟩
      · exact tail h

theorem read_cells (base : Nat) (bs : List Byte) (a : Nat) :
    Memory.read (Memory.cells base bs) a = if base ≤ a then bs.getD (a - base) 0 else 0 := by
  induction bs generalizing base with
  | nil => simp [Memory.cells]
  | cons b bs ih =>
    by_cases hb : b = Memory.unlisted
    · rw [Memory.cells, if_pos hb, ih]
      rcases Nat.lt_trichotomy a base with h | h | h
      · rw [if_neg (by omega), if_neg (by omega)]
      · subst h; rw [if_neg (by omega), if_pos (Nat.le_refl _)]; simp [hb, Memory.unlisted]
      · rw [if_pos (by omega), if_pos (by omega), show a - base = (a - (base + 1)) + 1 by omega]
        simp
    · rw [Memory.cells, if_neg hb, read_cons, ih]
      rcases Nat.lt_trichotomy a base with h | h | h
      · rw [if_neg (by simp; omega), if_neg (by omega), if_neg (by omega)]
      · subst h; simp
      · rw [if_neg (by simp; omega), if_pos (by omega), if_pos (by omega),
          show a - base = (a - (base + 1)) + 1 by omega]
        simp

/-- A read after a store: the stored byte inside the stored range, the old one outside it. -/
theorem read_store (m : Memory) (base : Nat) (bs : List Byte) (a : Nat) :
    (m.store base bs).read a = if base ≤ a ∧ a < base + bs.length then bs.getD (a - base) 0 else m.read a := by
  have hlow : ∀ c ∈ m.filter (fun c => decide (c.1 < base)), c.1 < base := fun c hc => by
    simpa using (List.mem_filter.mp hc).2
  have hhigh : ∀ c ∈ m.filter (fun c => decide (base + bs.length ≤ c.1)), base + bs.length ≤ c.1 := fun c hc => by
    simpa using (List.mem_filter.mp hc).2
  have hmid := mem_cells base bs
  unfold Memory.store
  rcases Nat.lt_or_ge a base with h | h
  · rw [read_append_of_right _ _ _ (fun c hc => by have := hhigh c hc; omega),
      read_append_of_right _ _ _ (fun c hc => by have := (hmid c hc).1; omega),
      read_filter (fun x => decide (x < base)) m a (by simpa using h), if_neg (by omega)]
  · rcases Nat.lt_or_ge a (base + bs.length) with h' | h'
    · rw [read_append_of_right _ _ _ (fun c hc => by have := hhigh c hc; omega),
        read_append_of_left _ _ _ (fun c hc => by have := hlow c hc; omega),
        read_cells, if_pos h, if_pos ⟨h, h'⟩]
    · rw [read_append_of_left _ _ _ (fun c hc => by
          rcases List.mem_append.mp hc with hc | hc
          · have := hlow c hc; omega
          · have := (hmid c hc).2.1; omega),
        read_filter (fun x => decide (base + bs.length ≤ x)) m a (by simpa using h'), if_neg (by omega)]

theorem read_store_outside (m : Memory) (base : Nat) (bs : List Byte) (a : Nat)
    (h : ¬(base ≤ a ∧ a < base + bs.length)) : (m.store base bs).read a = m.read a := by
  rw [read_store, if_neg h]

theorem read_store_inside (m : Memory) (base : Nat) (bs : List Byte) (i : Nat) (h : i < bs.length) :
    (m.store base bs).read (base + i) = bs.getD i 0 := by
  rw [read_store, if_pos ⟨by omega, by omega⟩, Nat.add_sub_cancel_left]

theorem pairwise_cells (base : Nat) (bs : List Byte) :
    (Memory.cells base bs).Pairwise (fun c d => c.1 < d.1) := by
  induction bs generalizing base with
  | nil => exact List.Pairwise.nil
  | cons b bs ih =>
    unfold Memory.cells
    split
    · exact ih _
    · exact List.pairwise_cons.mpr ⟨fun d hd => by have := (mem_cells _ _ d hd).1; simp; omega, ih _⟩

/-- Every store keeps the canonical form. -/
theorem wf_store (m : Memory) (base : Nat) (bs : List Byte) (h : m.wf) : (m.store base bs).wf := by
  obtain ⟨hs, hz⟩ := h
  refine ⟨?_, ?_⟩
  · refine List.pairwise_append.mpr ⟨List.pairwise_append.mpr ⟨hs.filter _, pairwise_cells _ _, ?_⟩, hs.filter _, ?_⟩
    · intro c hc d hd
      have h1 : c.1 < base := by simpa using (List.mem_filter.mp hc).2
      have h2 := (mem_cells base bs d hd).1
      omega
    · intro c hc d hd
      have h2 : base + bs.length ≤ d.1 := by simpa using (List.mem_filter.mp hd).2
      rcases List.mem_append.mp hc with hc | hc
      · have h1 : c.1 < base := by simpa using (List.mem_filter.mp hc).2
        omega
      · have h1 := (mem_cells base bs c hc).2.1
        omega
  · intro c hc
    rcases List.mem_append.mp hc with hc | hc
    · rcases List.mem_append.mp hc with hc | hc
      · exact hz c (List.mem_filter.mp hc).1
      · exact (mem_cells base bs c hc).2.2
    · exact hz c (List.mem_filter.mp hc).1

theorem wf_nil : Memory.wf [] := by decide

/-- A store lists only offsets that were listed or lie in the stored range. -/
theorem mem_store (m : Memory) (base : Nat) (bs : List Byte) :
    ∀ c ∈ m.store base bs, c ∈ m ∨ (base ≤ c.1 ∧ c.1 < base + bs.length) := by
  intro c hc
  rcases List.mem_append.mp hc with hc | hc
  · rcases List.mem_append.mp hc with hc | hc
    · exact .inl (List.mem_filter.mp hc).1
    · exact .inr ⟨(mem_cells base bs c hc).1, (mem_cells base bs c hc).2.1⟩
  · exact .inl (List.mem_filter.mp hc).1

/-- A store of zeros lists nothing new. -/
theorem mem_store_zeros (m : Memory) (base n : Nat) :
    ∀ c ∈ m.store base (List.replicate n 0), c ∈ m := by
  have hz : Memory.cells base (List.replicate n 0) = [] := by
    induction n generalizing base with
    | zero => rfl
    | succ n ih => rw [List.replicate_succ, Memory.cells, if_pos (show (0 : Byte) = Memory.unlisted from rfl), ih]
  intro c hc
  unfold Memory.store at hc
  rw [hz, List.append_nil] at hc
  rcases List.mem_append.mp hc with hc | hc <;> exact (List.mem_filter.mp hc).1

/-- A store of zeros reads as 0 in its range, and as before elsewhere. -/
theorem read_store_zeros (m : Memory) (base n a : Nat) :
    (m.store base (List.replicate n 0)).read a = if base ≤ a ∧ a < base + n then 0 else m.read a := by
  rw [read_store, List.length_replicate]
  split
  · rw [List.getD_eq_getElem?_getD, List.getElem?_replicate]; split <;> rfl
  · rfl

/-- In the canonical form a listed cell is what a read of its offset gives. -/
theorem read_of_mem (m : Memory) (h : m.wf) (c : Host.Cell) (hc : c ∈ m) : m.read c.1 = c.2 := by
  induction m with
  | nil => simp at hc
  | cons d m ih =>
    have hp := List.pairwise_cons.mp h.1
    rcases List.mem_cons.mp hc with rfl | hm
    · rw [read_cons, if_pos rfl]
    · rw [read_cons, if_neg (by have := hp.1 c hm; omega)]
      exact ih ⟨hp.2, fun e he => h.2 e (by simp [he])⟩ hm

/-- Below the lowest listed offset every byte reads as an unlisted one. -/
theorem read_below (m : Memory) (a : Nat) (h : ∀ c ∈ m, a < c.1) : m.read a = 0 :=
  read_of_unlisted m a fun c hc => by have := h c hc; omega

/-- In the canonical form, memories that read the same are the same list. -/
theorem eq_of_read (m m' : Memory) (hw : m.wf) (hw' : m'.wf) (h : ∀ a, m.read a = m'.read a) : m = m' := by
  revert m' hw hw' h
  induction m with
  | nil =>
    intro m' _ h' h
    cases m' with
    | nil => rfl
    | cons c m' =>
      have := h c.1
      rw [read_cons, if_pos rfl] at this
      exact absurd this.symm (h'.2 c (by simp))
  | cons c m ih =>
    intro m' hw hw' h
    have hlt := (List.pairwise_cons.mp hw.1)
    cases m' with
    | nil =>
      have := h c.1
      rw [read_cons, if_pos rfl] at this
      exact absurd this (hw.2 c (by simp))
    | cons c' m' =>
      have hlt' := (List.pairwise_cons.mp hw'.1)
      have n1 := hw.2 c (by simp)
      have n2 := hw'.2 c' (by simp)
      have e1 : c.1 = c'.1 := by
        rcases Nat.lt_trichotomy c.1 c'.1 with g | g | g
        · have := h c.1
          rw [read_cons, if_pos rfl, read_cons, if_neg (by omega), read_below m' c.1 (fun d hd => by have := hlt'.1 d hd; omega)] at this
          exact absurd this n1
        · exact g
        · have := h c'.1
          rw [read_cons c', if_pos rfl, read_cons, if_neg (by omega), read_below m c'.1 (fun d hd => by have := hlt.1 d hd; omega)] at this
          exact absurd this.symm n2
      have e2 : c.2 = c'.2 := by
        have := h c.1
        rwa [read_cons, if_pos rfl, read_cons, if_pos e1.symm] at this
      have ec : c = c' := Prod.ext e1 e2
      subst ec
      congr 1
      apply ih m' ⟨hlt.2, fun d hd => hw.2 d (by simp [hd])⟩ ⟨hlt'.2, fun d hd => hw'.2 d (by simp [hd])⟩
      intro a
      by_cases ha : c.1 = a
      · subst ha
        rw [read_below m _ hlt.1, read_below m' _ hlt'.1]
      · have := h a
        rwa [read_cons, if_neg ha, read_cons, if_neg ha] at this

@[simp] theorem length_bytes (m : Memory) (base n : Nat) : (m.bytes base n).length = n := by
  simp [Memory.bytes]

/-- The bytes of a range depend on the reads of that range alone. -/
theorem bytes_congr (m m' : Memory) (base n : Nat) (h : ∀ i < n, m.read (base + i) = m'.read (base + i)) :
    m.bytes base n = m'.bytes base n := by
  unfold Memory.bytes
  exact List.map_congr_left fun i hi => h i (List.mem_range.mp hi)

@[simp] theorem length_zeroPad (n : Nat) (bs : List Byte) : (zeroPad n bs).length = n := by
  simp only [zeroPad, List.length_append, List.length_take, List.length_replicate]; omega

/-- Byte i of a padded sequence: byte i of the sequence, or 0 past its end. -/
theorem getD_zeroPad (n : Nat) (bs : List Byte) (i : Nat) (h : i < n) : (zeroPad n bs).getD i 0 = bs.getD i 0 := by
  unfold zeroPad
  rcases Nat.lt_or_ge i bs.length with hi | hi
  · rw [List.getD_append _ _ _ _ (by simp; omega), List.getD_eq_getElem _ _ (by simp; omega),
      List.getD_eq_getElem _ _ hi]
    simp
  · rw [List.getD_append_right _ _ _ _ (by simp; omega), List.getD_eq_default bs 0 (by omega)]
    rw [List.getD_eq_getElem?_getD, List.getElem?_replicate]
    split <;> rfl

end Sys2Proof.Laws
end

