-- ==== Sys2Proof/Laws/Base32.lean ====
section
/-! SUPPORT. What the Base32 loop and the decode step can do. -/

namespace Sys2Proof.Laws

open Sys2Proof.Machine Sys2Proof.Safety

theorem secret_eq (s : State) : s.secret = secretBytes s := rfl

theorem text_eq (s : State) : s.text = textBytes s := rfl

@[simp] theorem length_secretBytes (s : State) : (secretBytes s).length = s.inputs.keyLen.toNat := by
  simp [secretBytes]

@[simp] theorem length_textBytes (s : State) : (textBytes s).length = s.inputs.textLen.toNat := by
  simp [textBytes]

/-! ## One character of the loop -/

theorem b32loop_nil (acc bits pad : Nat) : b32loop acc bits pad [] = .ok [] := by
  unfold b32loop; rfl

/-- A '=' is counted and emits nothing. -/
theorem b32loop_pad (acc bits pad : Nat) (t : Byte) (ts : List Byte) (h : foldCase t = padByte) :
    b32loop acc bits pad (t :: ts) = b32loop acc bits (pad + 1) ts := by
  rw [b32loop, if_pos h]

/-- Any other byte after a '=' is B32_PAD. -/
theorem b32loop_after_pad (acc bits pad : Nat) (t : Byte) (ts : List Byte) (h : foldCase t ≠ padByte)
    (hp : pad > 0) : b32loop acc bits pad (t :: ts) = .error .b32Pad := by
  rw [b32loop, if_neg h, if_pos hp]

/-- A byte that is neither '=' nor a symbol, before any '=', is B32_CHAR. -/
theorem b32loop_invalid (acc bits : Nat) (t : Byte) (ts : List Byte) (h : foldCase t ≠ padByte)
    (hv : symbolValue (foldCase t) = none) : b32loop acc bits 0 (t :: ts) = .error .b32Char := by
  rw [b32loop, if_neg h, if_neg (by omega), hv]

/-- A symbol that leaves fewer than 8 bits held emits nothing. -/
theorem b32loop_hold (acc bits v : Nat) (t : Byte) (ts : List Byte) (h : foldCase t ≠ padByte)
    (hv : symbolValue (foldCase t) = some v) (hb : bits + 5 < 8) :
    b32loop acc bits 0 (t :: ts) = b32loop (acc * 32 + v) (bits + 5) 0 ts := by
  rw [b32loop, if_neg h, if_neg (by omega), hv]
  simp only
  rw [if_neg (by omega)]

/-- A symbol that leaves at least 8 bits held emits the 8 oldest. -/
theorem b32loop_emit (acc bits v : Nat) (t : Byte) (ts : List Byte) (h : foldCase t ≠ padByte)
    (hv : symbolValue (foldCase t) = some v) (hb : 8 ≤ bits + 5) :
    b32loop acc bits 0 (t :: ts) =
      (b32loop ((acc * 32 + v) % 2 ^ (bits + 5 - 8)) (bits + 5 - 8) 0 ts).map
        (BitVec.ofNat 8 ((acc * 32 + v) / 2 ^ (bits + 5 - 8)) :: ·) := by
  rw [b32loop, if_neg h, if_neg (by omega), hv]
  simp only
  rw [if_pos hb]
  cases b32loop ((acc * 32 + v) % 2 ^ (bits + 5 - 8)) (bits + 5 - 8) 0 ts <;> rfl

/-- The five shapes of one character, as one case split (rule R133). -/
theorem b32loop_cons_cases (acc bits pad : Nat) (t : Byte) (ts : List Byte) :
    (foldCase t = padByte ∧ b32loop acc bits pad (t :: ts) = b32loop acc bits (pad + 1) ts)
      ∨ b32loop acc bits pad (t :: ts) = .error .b32Pad
      ∨ b32loop acc bits pad (t :: ts) = .error .b32Char
      ∨ (∃ v, pad = 0 ∧ bits + 5 < 8 ∧ symbolValue (foldCase t) = some v
          ∧ b32loop acc bits pad (t :: ts) = b32loop (acc * 32 + v) (bits + 5) 0 ts)
      ∨ ∃ v, pad = 0 ∧ 8 ≤ bits + 5 ∧ symbolValue (foldCase t) = some v
          ∧ b32loop acc bits pad (t :: ts) =
              (b32loop ((acc * 32 + v) % 2 ^ (bits + 5 - 8)) (bits + 5 - 8) 0 ts).map
                (BitVec.ofNat 8 ((acc * 32 + v) / 2 ^ (bits + 5 - 8)) :: ·) := by
  by_cases h : foldCase t = padByte
  · exact .inl ⟨h, b32loop_pad _ _ _ _ _ h⟩
  · rcases Nat.eq_zero_or_pos pad with rfl | hp
    · cases hv : symbolValue (foldCase t) with
      | none => exact .inr (.inr (.inl (b32loop_invalid _ _ _ _ h hv)))
      | some v =>
        rcases Nat.lt_or_ge (bits + 5) 8 with hb | hb
        · exact .inr (.inr (.inr (.inl ⟨v, rfl, hb, rfl, b32loop_hold _ _ _ _ _ h hv hb⟩)))
        · exact .inr (.inr (.inr (.inr ⟨v, rfl, hb, rfl, b32loop_emit _ _ _ _ _ h hv hb⟩)))
    · exact .inr (.inl (b32loop_after_pad _ _ _ _ _ h hp))

/-! ## The whole decode -/

/-- A decode emits at most 5 bits a character (rule R137). -/
theorem b32loop_length (acc bits pad : Nat) (ts out : List Byte) (h : b32loop acc bits pad ts = .ok out) :
    8 * out.length ≤ bits + 5 * ts.length := by
  induction ts generalizing acc bits pad out with
  | nil => rw [b32loop_nil] at h; cases h; simp
  | cons t ts ih =>
    rw [List.length_cons]
    rcases b32loop_cons_cases acc bits pad t ts with ⟨-, e⟩ | e | e | ⟨v, -, -, -, e⟩ | ⟨v, -, hb, -, e⟩
      <;> rw [e] at h
    · have := ih _ _ _ _ h; omega
    · cases h
    · cases h
    · have := ih _ _ _ _ h; omega
    · cases hr : b32loop ((acc * 32 + v) % 2 ^ (bits + 5 - 8)) (bits + 5 - 8) 0 ts with
      | error k => rw [hr] at h; cases h
      | ok out' =>
        rw [hr] at h; cases h
        have := ih _ _ _ _ hr
        rw [List.length_cons]; omega

theorem b32decode_length (t out : List Byte) (h : b32decode t = .ok out) : out.length ≤ 5 * t.length / 8 := by
  have := b32loop_length 0 0 0 t out h; omega

/-- The decoder's failures are B32_CHAR and B32_PAD (rule R133). -/
theorem b32loop_error (acc bits pad : Nat) (ts : List Byte) (k : Cause) (h : b32loop acc bits pad ts = .error k) :
    k = .b32Char ∨ k = .b32Pad := by
  induction ts generalizing acc bits pad with
  | nil => rw [b32loop_nil] at h; cases h
  | cons t ts ih =>
    rcases b32loop_cons_cases acc bits pad t ts with ⟨-, e⟩ | e | e | ⟨v, -, -, -, e⟩ | ⟨v, -, -, -, e⟩
      <;> rw [e] at h
    · exact ih _ _ _ h
    · cases h; exact .inr rfl
    · cases h; exact .inl rfl
    · exact ih _ _ _ h
    · cases hr : b32loop ((acc * 32 + v) % 2 ^ (bits + 5 - 8)) (bits + 5 - 8) 0 ts with
      | error k' => rw [hr] at h; cases h; exact ih _ _ _ hr
      | ok out' => rw [hr] at h; cases h

theorem b32decode_error (t : List Byte) (k : Cause) (h : b32decode t = .error k) : k = .b32Char ∨ k = .b32Pad :=
  b32loop_error 0 0 0 t k h

/-! ## The decode step -/

theorem decodeText_long (s : State) (h : 192 < s.inputs.textLen.toNat) :
    decodeText Config.chip s = Run.fail .lenRange s := if_pos h

theorem decodeText_ok (s : State) (out : List Byte) (h : s.inputs.textLen.toNat ≤ 192)
    (hd : b32decode (textBytes s) = .ok out) : decodeText Config.chip s = Run.ok (s.setKey Config.chip out) := by
  have hd' : b32decode s.text = .ok out := hd
  rw [decodeText, chip_textCap, if_neg (by omega), decodeStep, hd']

theorem decodeText_error (s : State) (k : Cause) (h : s.inputs.textLen.toNat ≤ 192)
    (hd : b32decode (textBytes s) = .error k) : decodeText Config.chip s = Run.fail k (s.setKey Config.chip []) := by
  have hd' : b32decode s.text = .error k := hd
  rw [decodeText, chip_textCap, if_neg (by omega), decodeStep, hd']

/-- A text within TEXT_CAP decodes to at most 120 bytes (rule R137). -/
theorem decoded_length (s : State) (out : List Byte) (h : s.inputs.textLen.toNat ≤ 192)
    (hd : b32decode (textBytes s) = .ok out) : out.length ≤ 120 := by
  have := b32decode_length _ _ hd
  rw [length_textBytes] at this
  omega

theorem decodedBytes_ok (s : State) (out : List Byte) (hd : b32decode (textBytes s) = .ok out) :
    decodedBytes s = out := by
  rw [decodedBytes, hd]

theorem decodedBytes_error (s : State) (k : Cause) (hd : b32decode (textBytes s) = .error k) :
    decodedBytes s = [] := by
  rw [decodedBytes, hd]

theorem length_decodedBytes (s : State) (h : s.inputs.textLen.toNat ≤ 192) : (decodedBytes s).length ≤ 120 := by
  cases hd : b32decode (textBytes s) with
  | ok out => rw [decodedBytes_ok s out hd]; exact decoded_length s out h hd
  | error k => rw [decodedBytes_error s k hd]; simp

/-- All that the decode of a command can do (rules R138, R139). -/
theorem decodeText_cases (s : State) :
    (192 < s.inputs.textLen.toNat ∧ decodeText Config.chip s = Run.fail .lenRange s)
      ∨ (∃ out, s.inputs.textLen.toNat ≤ 192 ∧ b32decode (textBytes s) = .ok out ∧ out.length ≤ 120
          ∧ decodeText Config.chip s = Run.ok (s.setKey Config.chip out))
      ∨ ∃ k, s.inputs.textLen.toNat ≤ 192 ∧ b32decode (textBytes s) = .error k ∧ (k = .b32Char ∨ k = .b32Pad)
          ∧ decodeText Config.chip s = Run.fail k (s.setKey Config.chip []) := by
  rcases Nat.lt_or_ge 192 s.inputs.textLen.toNat with h | h
  · exact .inl ⟨h, decodeText_long s h⟩
  · cases hd : b32decode (textBytes s) with
    | ok out => exact .inr (.inl ⟨out, h, rfl, decoded_length s out h hd, decodeText_ok s out h hd⟩)
    | error k => exact .inr (.inr ⟨k, h, rfl, b32decode_error _ _ hd, decodeText_error s k h hd⟩)

/-- KEY after the decode step: the decoded bytes, then zeros. -/
theorem setKey_read (s : State) (out : List Byte) (a : Nat) :
    (s.setKey Config.chip out).mem.read a =
      if 0x100 ≤ a ∧ a < 0x180 then out.getD (a - 0x100) 0 else s.mem.read a := by
  rw [setKey_mem, bufferBase_key, chip_keyCap, read_store, length_zeroPad]
  split
  · rw [getD_zeroPad _ _ _ (by omega)]
  · rfl

theorem setKey_keyLen (s : State) (out : List Byte) (h : out.length ≤ 120) :
    (s.setKey Config.chip out).inputs.keyLen.toNat = out.length := by
  rw [setKey_inputs]; simp only [BitVec.toNat_ofNat]; omega

/-- The secret that the core reads after a decode is what was decoded. -/
theorem setKey_secretBytes (s : State) (out : List Byte) (h : out.length ≤ 120) :
    secretBytes (s.setKey Config.chip out) = out := by
  apply List.ext_getElem
  · rw [length_secretBytes, setKey_keyLen s out h]
  · intro i h1 h2
    simp only [secretBytes, List.getElem_map, List.getElem_range, setKey_read]
    rw [if_pos ⟨by omega, by omega⟩, Nat.add_sub_cancel_left, List.getD_eq_getElem _ _ h2]

end Sys2Proof.Laws
end

