-- ==== Sys2Proof/Laws/Bus.lean ====
section
/-! SUPPORT. The address map, and all that a transaction can do. -/

namespace Sys2Proof.Laws

open Sys2Proof.Machine Sys2Proof.Safety

/-! ## The address map -/

/-- Words 0 to 21 of the window are the registers, at their offsets; there is no other. -/
theorem regMap_get (n : Nat) :
    (∃ r, regMap[n]? = some r ∧ (regOffset r).toNat = 4 * n ∧ n < 22) ∨ (regMap[n]? = none ∧ 22 ≤ n) := by
  rcases Nat.lt_or_ge n 22 with h | h
  · left
    have hd : ∀ m : Fin 22, ∃ r, regMap[m.val]? = some r ∧ (regOffset r).toNat = 4 * m.val := by
      intro m
      fin_cases m <;> exact ⟨_, rfl, rfl⟩
    obtain ⟨r, h1, h2⟩ := hd ⟨n, h⟩
    exact ⟨r, h1, h2, h⟩
  · exact .inr ⟨List.getElem?_eq_none h, h⟩

@[simp] theorem target_regOffset (r : Reg) : target Config.chip (regOffset r) = some (.reg r) := by
  cases r <;> rfl

theorem inBuffer_pos (b : Buffer) (o : Nat)
    (h : bufferBase b ≤ o ∧ o < bufferBase b + bufferSize Config.chip b) : inBuffer Config.chip b o = true := by
  simpa [inBuffer] using h

theorem inBuffer_neg (b : Buffer) (o : Nat)
    (h : ¬(bufferBase b ≤ o ∧ o < bufferBase b + bufferSize Config.chip b)) : inBuffer Config.chip b o = false := by
  rw [← Bool.not_eq_true]
  intro hb
  exact h (by simpa [inBuffer] using hb)

/-- The buffers lie apart, past the registers (rule R61). -/
theorem buffers_apart (b : Buffer) (o : Nat)
    (h : bufferBase b ≤ o ∧ o < bufferBase b + bufferSize Config.chip b) :
    0x058 ≤ o ∧ ∀ b', b' ≠ b → ¬(bufferBase b' ≤ o ∧ o < bufferBase b' + bufferSize Config.chip b') := by
  cases b <;> simp only [bufferBase_code, bufferBase_key, bufferBase_text, bufferSize_code, bufferSize_key,
      bufferSize_text, chip_codeBuf, chip_keyCap, chip_textCap] at h <;> refine ⟨by omega, fun b' hb => ?_⟩ <;>
    cases b' <;> simp only [bufferBase_code, bufferBase_key, bufferBase_text, bufferSize_code, bufferSize_key,
      bufferSize_text, chip_codeBuf, chip_keyCap, chip_textCap] <;> first | omega | exact absurd rfl hb

/-- A word of a buffer is at its base plus four times its index (rules R39 to R41, R62). -/
theorem target_word (b : Buffer) (k : Nat) (off : Offset) (ho : off.toNat = bufferBase b + 4 * k)
    (hk : 4 * k < bufferSize Config.chip b) : target Config.chip off = some (.word b k) := by
  have hin : bufferBase b ≤ off.toNat ∧ off.toNat < bufferBase b + bufferSize Config.chip b := by omega
  obtain ⟨h58, hne⟩ := buffers_apart b off.toNat hin
  have hm : off.toNat % 4 = 0 := by cases b <;> rw [ho] <;> simp
  have hkk : (off.toNat - bufferBase b) / 4 = k := by omega
  unfold target
  rcases regMap_get (off.toNat / 4) with ⟨r, -, -, hn⟩ | ⟨e, -⟩
  · omega
  · cases b with
    | code => simp [hm, e, inBuffer_pos .code _ hin, ← hkk]
    | key => simp [hm, e, inBuffer_neg .code _ (hne .code (by decide)), inBuffer_pos .key _ hin, ← hkk]
    | text =>
      simp [hm, e, inBuffer_neg .code _ (hne .code (by decide)), inBuffer_neg .key _ (hne .key (by decide)),
        inBuffer_pos .text _ hin, ← hkk]

/-- What an offset names: nothing, a register at its offset, or a word inside a buffer (rules R61, R67). -/
theorem target_cases (off : Offset) :
    (NoTarget off.toNat ∧ target Config.chip off = none)
      ∨ (¬NoTarget off.toNat ∧ ∃ r, off = regOffset r ∧ target Config.chip off = some (.reg r))
      ∨ (¬NoTarget off.toNat ∧ ∃ b k, off.toNat = bufferBase b + 4 * k ∧ 4 * k + 3 < bufferSize Config.chip b
          ∧ target Config.chip off = some (.word b k)) := by
  by_cases hm : off.toNat % 4 = 0
  · rcases regMap_get (off.toNat / 4) with ⟨r, -, ho, hn⟩ | ⟨e, hn⟩
    · refine .inr (.inl ⟨by omega, r, ?_, ?_⟩)
      · apply BitVec.eq_of_toNat_eq; omega
      · have : off = regOffset r := BitVec.eq_of_toNat_eq (by omega)
        rw [this, target_regOffset]
    · by_cases hb : ∃ b, bufferBase b ≤ off.toNat ∧ off.toNat < bufferBase b + bufferSize Config.chip b
      · obtain ⟨b, h1, h2⟩ := hb
        have ho : off.toNat = bufferBase b + 4 * ((off.toNat - bufferBase b) / 4) := by
          cases b <;> simp only [bufferBase_code, bufferBase_key, bufferBase_text] at h1 ⊢ <;> omega
        refine .inr (.inr ⟨?_, b, _, ho, ?_, target_word b _ off ho (by omega)⟩)
        · cases b <;> simp only [bufferBase_code, bufferBase_key, bufferBase_text, bufferSize_code, bufferSize_key,
            bufferSize_text, chip_codeBuf, chip_keyCap, chip_textCap] at h1 h2 <;> omega
        · cases b <;> simp only [bufferBase_code, bufferBase_key, bufferBase_text, bufferSize_code, bufferSize_key,
            bufferSize_text, chip_codeBuf, chip_keyCap, chip_textCap] at h1 h2 ⊢ <;> omega
      · have hc : ∀ b, ¬(bufferBase b ≤ off.toNat ∧ off.toNat < bufferBase b + bufferSize Config.chip b) :=
          fun b h => hb ⟨b, h⟩
        have h1 := hc .code
        have h2 := hc .key
        have h3 := hc .text
        refine .inl ⟨?_, ?_⟩
        · simp only [bufferBase_code, bufferBase_key, bufferBase_text, bufferSize_code, bufferSize_key,
            bufferSize_text, chip_codeBuf, chip_keyCap, chip_textCap] at h1 h2 h3
          omega
        · unfold target
          simp [hm, e, inBuffer_neg .code _ h1, inBuffer_neg .key _ h2, inBuffer_neg .text _ h3]
  · exact .inl ⟨.inl hm, if_pos hm⟩

/-! ## Reads and writes through the map -/

/-- BUSY is bit 0 of the STATUS word (rule R25). -/
theorem statusWord_busy (st : Status) : st.word[0] = st.busy := by
  rcases st with ⟨b, d, f, i, c⟩
  cases b <;> cases d <;> cases f <;> cases i <;> revert c <;> decide

/-- The STATUS word as a number (rule R25). -/
theorem statusWord_toNat (st : Status) :
    st.word.toNat = st.busy.toNat + 2 * st.done.toNat + 4 * st.fail.toNat + 8 * st.ign.toNat
      + 2 ^ 8 * st.cause.toNat := by
  rcases st with ⟨b, d, f, i, c⟩
  cases b <;> cases d <;> cases f <;> cases i <;> revert c <;> decide

theorem readAt_regOffset (r : Reg) (s : State) : readAt (regOffset r) s = (s.readReg Config.chip r, .okay) := by
  unfold readAt busRead
  rw [target_regOffset]

theorem readAt_word (b : Buffer) (k : Nat) (off : Offset) (s : State) (ho : off.toNat = bufferBase b + 4 * k)
    (hk : 4 * k < bufferSize Config.chip b) : readAt off s = (s.readWord Config.chip b k, .okay) := by
  unfold readAt busRead
  rw [target_word b k off ho hk]

theorem busWrite_regOffset (r : Reg) (v : Word) (s : State) :
    busWrite Config.chip (regOffset r) v s = (writeTarget Config.chip (.reg r) v s, .okay) := by
  unfold busWrite
  rw [target_regOffset]

theorem busWrite_word (b : Buffer) (k : Nat) (off : Offset) (v : Word) (s : State)
    (ho : off.toNat = bufferBase b + 4 * k) (hk : 4 * k < bufferSize Config.chip b) :
    busWrite Config.chip off v s = (writeTarget Config.chip (.word b k) v s, .okay) := by
  unfold busWrite
  rw [target_word b k off ho hk]

/-- No transaction depends on the environment. -/
theorem busRead_env (off : Offset) (s : State) (e : Env) :
    busRead Config.chip off { s with env := e } = busRead Config.chip off s := by
  unfold busRead
  split
  · rfl
  · rename_i r _; cases r <;> rfl
  · rfl

theorem writeTarget_env (t : Target) (v : Word) (s : State) (e : Env) :
    writeTarget Config.chip t v { s with env := e } = { writeTarget Config.chip t v s with env := e } := by
  cases t with
  | reg r =>
    simp only [writeTarget]
    cases regAccess r <;> simp [unlessBusy, State.issue, State.clearBuffer, State.storeBuffer] <;> split <;> rfl
  | word b k => cases b <;> simp [writeTarget, unlessBusy, State.writeWord] <;> split <;> rfl

theorem busWrite_env (off : Offset) (v : Word) (s : State) (e : Env) :
    busWrite Config.chip off v { s with env := e } =
      ({ (busWrite Config.chip off v s).1 with env := e }, (busWrite Config.chip off v s).2) := by
  unfold busWrite
  split
  · rfl
  · rw [writeTarget_env]

/-- A BusWrite answers BUSERR exactly where the offset names nothing (rules R61, R67). -/
theorem busWrite_resp (off : Offset) (v : Word) (s : State) :
    (busWrite Config.chip off v s).2 = if NoTarget off.toNat then .busErr else .okay := by
  unfold busWrite
  rcases target_cases off with ⟨h, e⟩ | ⟨h, r, -, e⟩ | ⟨h, b, k, -, -, e⟩ <;> rw [e] <;> simp only [h] <;> simp

/-! ## The bytes of a word -/

@[simp] theorem length_wordBytes (v : Word) : (wordBytes Config.chip v).length = 4 := by simp [wordBytes]

/-- Lane j of a word is its bits [8j+7:8j] (rule R62). -/
theorem getD_wordBytes (v : Word) (j : Nat) (h : j < 4) :
    (wordBytes Config.chip v).getD j 0 = v.extractLsb' (8 * j) 8 := by
  simp [wordBytes, h]

/-- A word of a buffer is its four bytes, the lowest offset in the lowest lane (rule R62). -/
theorem readWord_toNat (b : Buffer) (k : Nat) (s : State) :
    (s.readWord Config.chip b k).toNat =
      (s.mem.read (bufferBase b + 4 * k)).toNat + (s.mem.read (bufferBase b + 4 * k + 1)).toNat * 2 ^ 8
        + (s.mem.read (bufferBase b + 4 * k + 2)).toNat * 2 ^ 16
        + (s.mem.read (bufferBase b + 4 * k + 3)).toNat * 2 ^ 24 := by
  have h0 := (s.mem.read (bufferBase b + 4 * k)).isLt
  have h1 := (s.mem.read (bufferBase b + 4 * k + 1)).isLt
  have h2 := (s.mem.read (bufferBase b + 4 * k + 2)).isLt
  have h3 := (s.mem.read (bufferBase b + 4 * k + 3)).isLt
  simp only [State.readWord, chip_lanes, Memory.bytes, List.range_succ, List.range_zero, List.nil_append,
    List.cons_append, List.map_cons, List.map_nil, laneValue, BitVec.toNat_ofNat, Nat.add_zero]
  omega

/-- A word depends on the reads of its four bytes alone. -/
theorem readWord_congr (b : Buffer) (k : Nat) (s t : State)
    (h : ∀ j < 4, s.mem.read (bufferBase b + 4 * k + j) = t.mem.read (bufferBase b + 4 * k + j)) :
    s.readWord Config.chip b k = t.readWord Config.chip b k := by
  rw [State.readWord, State.readWord, chip_lanes, bytes_congr s.mem t.mem _ _ h]

/-- A byte after a word is written: the word's byte in its lane, every other byte as before (rule R62). -/
theorem writeWord_read (b : Buffer) (k : Nat) (v : Word) (s : State) (a : Nat) :
    (s.writeWord Config.chip b k v).mem.read a =
      if bufferBase b + 4 * k ≤ a ∧ a < bufferBase b + 4 * k + 4 then
        v.extractLsb' (8 * (a - (bufferBase b + 4 * k))) 8
      else s.mem.read a := by
  rw [writeWord_mem, read_store, length_wordBytes, chip_lanes]
  split
  · rw [getD_wordBytes _ _ (by omega)]
  · rfl

/-- A written word reads back (rule R62). -/
theorem readWord_writeWord (b : Buffer) (k : Nat) (v : Word) (s : State) :
    (s.writeWord Config.chip b k v).readWord Config.chip b k = v := by
  apply BitVec.eq_of_toNat_eq
  have hv := v.isLt
  have e : ∀ j < 4, (s.writeWord Config.chip b k v).mem.read (bufferBase b + 4 * k + j) = v.extractLsb' (8 * j) 8 := by
    intro j hj
    rw [writeWord_read, if_pos ⟨by omega, by omega⟩, Nat.add_sub_cancel_left]
  rw [readWord_toNat, e 1 (by omega), e 2 (by omega), e 3 (by omega),
    show (s.writeWord Config.chip b k v).mem.read (bufferBase b + 4 * k) = v.extractLsb' (8 * 0) 8 from e 0 (by omega)]
  simp only [BitVec.extractLsb'_toNat, Nat.shiftRight_eq_div_pow]
  omega

/-! ## All that a BusWrite can do -/

/-- The state after a BusWrite (rule R64). -/
inductive WriteEffect (s : State) : State → Prop where
  /-- A read-only word, an offset that names nothing, or a write that changes nothing. -/
  | nothing : WriteEffect s s
  /-- A write to STATUS. -/
  | w1c (v : Word) : WriteEffect s { s with status := s.status.w1c v }
  /-- A write to CTRL. -/
  | control (v : Word) : WriteEffect s { s with ie := v[0] }
  /-- A write that BUSY blocked. -/
  | ignored : s.status.busy = true → WriteEffect s { s with status := s.status.ignored }
  /-- An issue. -/
  | issued (w : Word) : s.status.busy = false → WriteEffect s (s.issue Config.chip w)
  /-- A stored input register. -/
  | stored (r : Reg) (v : Word) : s.status.busy = false → regAccess r = .input →
      WriteEffect s { s with inputs := s.inputs.store r v }
  /-- A stored word of KEY or TEXT. -/
  | word (b : Buffer) (k : Nat) (v : Word) : s.status.busy = false → b ≠ .code →
      4 * k + 3 < bufferSize Config.chip b → WriteEffect s (s.writeWord Config.chip b k v)

theorem unlessBusy_busy (s : State) (f : State → State) (h : s.status.busy = true) :
    unlessBusy s f = { s with status := s.status.ignored } := if_pos h

theorem unlessBusy_idle (s : State) (f : State → State) (h : s.status.busy = false) :
    unlessBusy s f = f s := by
  rw [unlessBusy, h]; rfl

/-- A blocked write or the write itself. -/
theorem unlessBusy_effect (s : State) (f : State → State)
    (h : s.status.busy = false → WriteEffect s (f s)) : WriteEffect s (unlessBusy s f) := by
  cases hb : s.status.busy with
  | true => rw [unlessBusy_busy s f hb]; exact .ignored hb
  | false => rw [unlessBusy_idle s f hb]; exact h hb

theorem writeTarget_reg_effect (r : Reg) (v : Word) (s : State) :
    WriteEffect s (writeTarget Config.chip (.reg r) v s) := by
  rw [writeTarget]
  cases h : regAccess r with
  | readOnly => exact .nothing
  | statusW1C => exact .w1c v
  | control => exact .control v
  | command => exact unlessBusy_effect s _ fun hb => .issued v hb
  | input => exact unlessBusy_effect s _ fun hb => .stored r v hb h

theorem busWrite_effect (off : Offset) (v : Word) (s : State) :
    WriteEffect s (busWrite Config.chip off v s).1 := by
  unfold busWrite
  rcases target_cases off with ⟨-, e⟩ | ⟨-, r, -, e⟩ | ⟨-, b, k, -, hk, e⟩ <;> rw [e]
  · exact .nothing
  · exact writeTarget_reg_effect r v s
  · cases b with
    | code => exact .nothing
    | key => exact unlessBusy_effect s _ fun hb => .word .key k v hb (by decide) hk
    | text => exact unlessBusy_effect s _ fun hb => .word .text k v hb (by decide) hk

theorem writeEffect_env {s t : State} (h : WriteEffect s t) : t.env = s.env := by
  cases h <;> simp

/-- While a command is pending, a write reaches only STATUS and CTRL (rule R65). -/
theorem writeEffect_busy {s t : State} (h : WriteEffect s t) (hb : s.status.busy = true) :
    t.status.busy = true ∧ t.pending = s.pending ∧ t.inputs = s.inputs ∧ t.results = s.results ∧ t.mem = s.mem
      ∧ t.status.fail = s.status.fail ∧ t.status.cause = s.status.cause := by
  cases h with
  | issued w h => rw [hb] at h; cases h
  | stored r v h => rw [hb] at h; cases h
  | word b k v h => rw [hb] at h; cases h
  | nothing => simp [hb]
  | w1c v => simp [hb]
  | control v => simp [hb]
  | ignored h => simp [hb]

/-! ## All that a move of the host can do -/

/-- A move of the host changes the engine as one BusWrite does, or not at all, and of the environment only the program
and the replies. -/
theorem hostMove_effect (s : State) :
    ∃ u, WriteEffect s u ∧ (hostMove Config.chip s).env.turns = s.env.turns
      ∧ (hostMove Config.chip s).env.hmacRequests = s.env.hmacRequests
      ∧ hostMove Config.chip s = { u with env := (hostMove Config.chip s).env } := by
  unfold hostMove
  split
  · exact ⟨s, .nothing, rfl, rfl, rfl⟩
  · exact ⟨s, .nothing, rfl, rfl, rfl⟩
  · rename_i off v rest _
    have h := busWrite_effect off v s
    have he := writeEffect_env h
    exact ⟨_, h, by simp [he], by simp [he], rfl⟩
  · exact ⟨s, .nothing, rfl, rfl, rfl⟩

/-- A move of the host while a command is pending reaches only STATUS, CTRL and the environment (rule R65). -/
theorem hostMove_busy (s : State) (hb : s.status.busy = true) :
    (hostMove Config.chip s).status.busy = true ∧ (hostMove Config.chip s).pending = s.pending
      ∧ (hostMove Config.chip s).inputs = s.inputs ∧ (hostMove Config.chip s).results = s.results
      ∧ (hostMove Config.chip s).mem = s.mem ∧ (hostMove Config.chip s).status.fail = s.status.fail
      ∧ (hostMove Config.chip s).status.cause = s.status.cause := by
  obtain ⟨u, hu, -, -, e⟩ := hostMove_effect s
  have := writeEffect_busy hu hb
  rw [e]; exact this

end Sys2Proof.Laws
end

