-- ==== Sys2Proof/Laws/Hotp.lean ====
section
/-! SUPPORT. What hotp_core and its stages can do. -/

namespace Sys2Proof.Laws

open Sys2Proof.Machine Sys2Proof.Safety

/-- The value of truncation is below 2^31 (rule R158). -/
theorem truncate_lt (h : List Byte) (v : Nat) (hv : truncate h = some v) : v < 2 ^ 31 := by
  unfold truncate at hv
  simp only at hv
  split at hv
  · cases hv
  · cases hv
    have h1 := (h.getD ((h.getD (h.length - 1) 0).toNat % 16 + 1) 0).isLt
    have h2 := (h.getD ((h.getD (h.length - 1) 0).toNat % 16 + 2) 0).isLt
    have h3 := (h.getD ((h.getD (h.length - 1) 0).toNat % 16 + 3) 0).isLt
    omega

/-- Truncation of a hash of at least 19 bytes cannot fail (rule R157). -/
theorem truncate_isSome (h : List Byte) (hl : 19 ≤ h.length) : ∃ v, truncate h = some v := by
  unfold truncate
  simp only
  rw [if_neg (by omega)]
  exact ⟨_, rfl⟩

theorem hashLen_ge (alg : Alg) : 20 ≤ Config.chip.hashLen alg := by cases alg <;> decide

@[simp] theorem length_renderDigits (digits val : Nat) : (renderDigits digits val).length = digits := by
  simp [renderDigits]

theorem getD_renderDigits (digits val i : Nat) (h : i < digits) :
    (renderDigits digits val).getD i 0 = BitVec.ofNat 8 (0x30 + val / 10 ^ (digits - 1 - i) % 10) := by
  simp [renderDigits, h]

/-- The stages on an answer of the wrong length. -/
theorem hashStages_wrong (alg : Alg) (h : List Byte) (s : State) (hl : h.length ≠ Config.chip.hashLen alg) :
    hashStages Config.chip alg h s = Run.fail .hashLen s := if_pos hl

/-- The stages on an answer of the right length. -/
theorem hashStages_right (alg : Alg) (h : List Byte) (s : State) (hl : h.length = Config.chip.hashLen alg) :
    ∃ v, truncate h = some v ∧ v < 2 ^ 31 ∧ hashStages Config.chip alg h s =
      Run.ok (s.writeCode s.inputs.policy.digits.toNat (v % 10 ^ s.inputs.policy.digits.toNat)) := by
  obtain ⟨v, hv⟩ := truncate_isSome h (by have := hashLen_ge alg; omega)
  refine ⟨v, hv, truncate_lt h v hv, ?_⟩
  rw [hashStages, if_neg (by simpa using hl), hv]

/-- The request that hotp_core makes. -/
def coreRequest (alg : Alg) (c : Nat) (s : State) : HmacRequest :=
  { alg := alg, key := secretBytes s, msg := counterBytes Config.chip c }

@[simp] theorem length_counterBytes (c : Nat) : (counterBytes Config.chip c).length = 8 := by simp [counterBytes]

/-- hotp_core of the chip, its checks in their order (rules R153 to R155, R161). -/
theorem hotpCore_eq (alg : Alg) (c : Nat) (s : State) :
    hotpCore Config.chip alg c s =
      if 128 < s.inputs.keyLen.toNat then Run.fail .lenRange s
      else if s.inputs.keyLen.toNat = 0 then Run.fail .emptySecret s
      else if ¬(s.inputs.policy.dmin.toNat ≤ s.inputs.policy.digits.toNat
          ∧ s.inputs.policy.digits.toNat ≤ s.inputs.policy.dmax.toNat) then Run.fail .digitPolicy s
      else if 10 < s.inputs.policy.digits.toNat then Run.fail .codeCap s
      else hashStages Config.chip alg (Config.hmacUnit alg (secretBytes s) (counterBytes Config.chip c))
        (s.requestHmac (coreRequest alg c s)) := rfl

theorem hotpCore_lenRange (alg : Alg) (c : Nat) (s : State) (h : 128 < s.inputs.keyLen.toNat) :
    hotpCore Config.chip alg c s = Run.fail .lenRange s := if_pos h

theorem hotpCore_empty (alg : Alg) (c : Nat) (s : State) (h : s.inputs.keyLen.toNat = 0) :
    hotpCore Config.chip alg c s = Run.fail .emptySecret s := by
  rw [hotpCore_eq, if_neg (by omega), if_pos h]

/-- hotp_core where every check before the request passes. -/
theorem hotpCore_asks (alg : Alg) (c : Nat) (s : State) (h : CoreChecksPass s) :
    hotpCore Config.chip alg c s =
      hashStages Config.chip alg (Config.hmacUnit alg (secretBytes s) (counterBytes Config.chip c)) (s.requestHmac (coreRequest alg c s)) := by
  obtain ⟨h1, h2, h3, h4, h5⟩ := h
  rw [hotpCore_eq, if_neg (by omega), if_neg (by omega), if_neg (by omega), if_neg (by omega)]

/-- All that hotp_core can do (rule R161). -/
theorem hotpCore_cases (alg : Alg) (c : Nat) (s : State) :
    (∃ k, (k = .lenRange ∨ k = .emptySecret ∨ k = .digitPolicy ∨ k = .codeCap) ∧ ¬CoreChecksPass s
        ∧ hotpCore Config.chip alg c s = Run.fail k s)
      ∨ (CoreChecksPass s
          ∧ (Config.hmacUnit alg (secretBytes s) (counterBytes Config.chip c)).length ≠ Config.chip.hashLen alg
          ∧ hotpCore Config.chip alg c s = Run.fail .hashLen (s.requestHmac (coreRequest alg c s)))
      ∨ ∃ v, CoreChecksPass s
          ∧ (Config.hmacUnit alg (secretBytes s) (counterBytes Config.chip c)).length = Config.chip.hashLen alg
          ∧ truncate (Config.hmacUnit alg (secretBytes s) (counterBytes Config.chip c)) = some v ∧ v < 2 ^ 31
          ∧ hotpCore Config.chip alg c s =
              Run.ok ((s.requestHmac (coreRequest alg c s)).writeCode s.inputs.policy.digits.toNat
                (v % 10 ^ s.inputs.policy.digits.toNat)) := by
  by_cases hc : CoreChecksPass s
  · rw [hotpCore_asks alg c s hc]
    by_cases hl : (Config.hmacUnit alg (secretBytes s) (counterBytes Config.chip c)).length = Config.chip.hashLen alg
    · obtain ⟨v, hv, hlt, he⟩ := hashStages_right alg _ (s.requestHmac (coreRequest alg c s)) hl
      exact .inr (.inr ⟨v, hc, hl, hv, hlt, he⟩)
    · exact .inr (.inl ⟨hc, hl, hashStages_wrong alg _ _ hl⟩)
  · left
    rw [hotpCore_eq]
    split
    · exact ⟨_, .inl rfl, hc, rfl⟩
    · rename_i h1
      split
      · exact ⟨_, .inr (.inl rfl), hc, rfl⟩
      · rename_i h2
        split
        · exact ⟨_, .inr (.inr (.inl rfl)), hc, rfl⟩
        · rename_i h3
          split
          · exact ⟨_, .inr (.inr (.inr rfl)), hc, rfl⟩
          · rename_i h4
            exact absurd ⟨by omega, by omega, (not_not.mp h3).1, (not_not.mp h3).2, by omega⟩ hc

/-- The algorithm check (rule R152): BAD_ALG for code 3 alone. -/
theorem withAlg_cases (s : State) (k : Alg → Run) :
    (s.inputs.policy.alg = 3 ∧ withAlg s k = Run.fail .badAlg s)
      ∨ ∃ alg, digestOf s.inputs.policy.alg = some (alg, Config.chip.hashLen alg) ∧ withAlg s k = k alg := by
  unfold withAlg
  have h : ∀ c : BitVec 2, (c = 3 ∧ algOf c = none) ∨ ∃ alg, digestOf c = some (alg, Config.chip.hashLen alg) ∧ algOf c = some alg := by
    intro c
    have hc : c = 0 ∨ c = 1 ∨ c = 2 ∨ c = 3 := by revert c; decide
    rcases hc with rfl | rfl | rfl | rfl
    · exact .inr ⟨.sha1, rfl, rfl⟩
    · exact .inr ⟨.sha256, rfl, rfl⟩
    · exact .inr ⟨.sha512, rfl, rfl⟩
    · exact .inl ⟨rfl, rfl⟩
  rcases h s.inputs.policy.alg with ⟨h3, ha⟩ | ⟨alg, hd, ha⟩
  · exact .inl ⟨h3, by rw [ha]⟩
  · exact .inr ⟨alg, hd, by rw [ha]⟩

/-- The algorithm check passes for a code that names a digest. -/
theorem withAlg_of_digest (s : State) (k : Alg → Run) (alg : Alg) (len : Nat)
    (h : digestOf s.inputs.policy.alg = some (alg, len)) : len = Config.chip.hashLen alg ∧ withAlg s k = k alg := by
  rcases withAlg_cases s k with ⟨h3, -⟩ | ⟨alg', hd, he⟩
  · rw [h3] at h; exact absurd h (by simp [digestOf])
  · rw [h] at hd; cases hd; exact ⟨rfl, he⟩

end Sys2Proof.Laws
end

