-- ==== Sys2Proof/Laws/Totp.lean ====
section
/-! SUPPORT. What the time-to-counter adapter and the window-expiry calculator can do. -/

namespace Sys2Proof.Laws

open Sys2Proof.Machine Sys2Proof.Safety

/-- R64 of the chip's pairs is the rule's sum. -/
@[simp] theorem val_chip (x : Reg64) : x.val Config.chip = pairValue x := rfl

/-- R64 is also the bits of X_HI above those of X_LO. -/
theorem toNat_append (x : Reg64) : (x.hi ++ x.lo).toNat = pairValue x := by
  rw [BitVec.toNat_append, Nat.shiftLeft_eq, pairValue, Nat.mul_comm, ← Nat.two_pow_add_eq_or_of_lt x.lo.isLt]

theorem pairValue_lt (x : Reg64) : pairValue x < 2 ^ 64 := by
  have := x.lo.isLt
  have := x.hi.isLt
  unfold pairValue
  omega

/-- A 64-bit value written to a pair is read back. -/
theorem pairValue_ofVal (v : Nat) (h : v < 2 ^ 64) : pairValue (Reg64.ofVal Config.chip v) = v := by
  simp only [pairValue, Reg64.ofVal, chip_wBus, BitVec.toNat_ofNat]
  omega

/-- A pair is determined by its value. -/
theorem pairValue_inj (x y : Reg64) (h : pairValue x = pairValue y) : x = y := by
  have := x.lo.isLt
  have := y.lo.isLt
  unfold pairValue at h
  ext1 <;> exact BitVec.eq_of_toNat_eq (by omega)

@[simp] theorem ofVal_pairValue (x : Reg64) : Reg64.ofVal Config.chip (pairValue x) = x :=
  pairValue_inj _ _ (pairValue_ofVal _ (pairValue_lt x))

theorem windowIndex_lt (s : State) : windowIndex s < 2 ^ 64 := by
  have := pairValue_lt s.inputs.time
  have := Nat.div_le_self (pairValue s.inputs.time - pairValue s.inputs.epoch) (pairValue s.inputs.timeStep)
  unfold windowIndex
  omega

/-- The checks of the time triple (rules R181, R182, R191, R193), as one case split. -/
theorem withTriple_cases (s : State) (k : Nat → Nat → Nat → Run) :
    (pairValue s.inputs.timeStep = 0 ∧ withTriple Config.chip s k = Run.fail .zeroStep s)
      ∨ (pairValue s.inputs.timeStep ≠ 0 ∧ pairValue s.inputs.time < pairValue s.inputs.epoch
          ∧ withTriple Config.chip s k = Run.fail .timeBeforeEpoch s)
      ∨ (TripleOk s ∧ withTriple Config.chip s k =
          k (pairValue s.inputs.time) (pairValue s.inputs.epoch) (pairValue s.inputs.timeStep)) := by
  by_cases h : pairValue s.inputs.timeStep = 0
  · exact .inl ⟨h, if_pos h⟩
  · have e : withTriple Config.chip s k =
        if pairValue s.inputs.time < pairValue s.inputs.epoch then Run.fail .timeBeforeEpoch s
        else k (pairValue s.inputs.time) (pairValue s.inputs.epoch) (pairValue s.inputs.timeStep) := if_neg h
    by_cases h' : pairValue s.inputs.time < pairValue s.inputs.epoch
    · exact .inr (.inl ⟨h, h', e.trans (if_pos h')⟩)
    · exact .inr (.inr ⟨⟨h, by omega⟩, e.trans (if_neg h')⟩)

theorem withTriple_of_ok (s : State) (k : Nat → Nat → Nat → Run) (h : TripleOk s) :
    withTriple Config.chip s k = k (pairValue s.inputs.time) (pairValue s.inputs.epoch) (pairValue s.inputs.timeStep) := by
  obtain ⟨h1, h2⟩ := h
  rcases withTriple_cases s k with ⟨h, -⟩ | ⟨-, h, -⟩ | ⟨-, h⟩
  · exact absurd h h1
  · omega
  · exact h

/-- TOTP's core on a good triple: hotp_core on the window's index, TCOUNT written on ok (rules R180, R183, R186). -/
theorem totpCore_of_ok (alg : Alg) (s : State) (h : TripleOk s) :
    totpCore Config.chip alg s =
      (hotpCore Config.chip alg (windowIndex s) s).andThen
        fun s' => Run.ok (s'.setTcount Config.chip (windowIndex s)) := by
  rw [totpCore, withTriple_of_ok s _ h]; rfl

/-- The window's end by the rule's other formula (rule R192). -/
theorem windowEnd_eq (s : State) (h : TripleOk s) :
    windowEnd s = pairValue s.inputs.epoch
      + (pairValue s.inputs.time - pairValue s.inputs.epoch
          - (pairValue s.inputs.time - pairValue s.inputs.epoch) % pairValue s.inputs.timeStep)
      + pairValue s.inputs.timeStep := by
  have hd := Nat.div_add_mod (pairValue s.inputs.time - pairValue s.inputs.epoch) (pairValue s.inputs.timeStep)
  rw [Nat.mul_comm] at hd
  unfold windowEnd windowIndex
  omega

/-- All that EXPIRE's procedure can do (rule R190). -/
theorem expireProc_cases (s : State) :
    (pairValue s.inputs.timeStep = 0 ∧ expireProc Config.chip s = Run.fail .zeroStep s)
      ∨ (pairValue s.inputs.timeStep ≠ 0 ∧ pairValue s.inputs.time < pairValue s.inputs.epoch
          ∧ expireProc Config.chip s = Run.fail .timeBeforeEpoch s)
      ∨ (TripleOk s ∧ 2 ^ 64 ≤ windowEnd s ∧ expireProc Config.chip s = Run.fail .overflow s)
      ∨ (TripleOk s ∧ windowEnd s < 2 ^ 64
          ∧ expireProc Config.chip s = Run.ok (s.setExpiry Config.chip (windowEnd s))) := by
  unfold expireProc
  rcases withTriple_cases s _ with ⟨h, e⟩ | ⟨h, h', e⟩ | ⟨h, e⟩
  · exact .inl ⟨h, e⟩
  · exact .inr (.inl ⟨h, h', e⟩)
  · rw [e]
    simp only
    rw [← windowEnd_eq s h]
    by_cases h' : windowEnd s > 2 ^ Config.chip.wMf - 1
    · rw [if_pos h']; rw [chip_wMf] at h'; exact .inr (.inr (.inl ⟨h, by omega, rfl⟩))
    · rw [if_neg h']; rw [chip_wMf] at h'; exact .inr (.inr (.inr ⟨h, by omega, rfl⟩))

end Sys2Proof.Laws
end

