-- ==== Sys2Proof/Laws/Exec.lean ====
section
/-! SUPPORT. All that a command's completion can do, said once: every claim about `exec` follows from `exec_effect`. -/

namespace Sys2Proof.Laws

open Sys2Proof.Machine Sys2Proof.Safety

/-- The procedure of each command (rule R116). -/
def procOf (i : Instr) (s : State) : Run :=
  match i with
  | .nop => Run.ok s
  | .b32dec => b32decProc Config.chip s
  | .hotp => hotpProc Config.chip s
  | .hotpB32 => hotpB32Proc Config.chip s
  | .totp => totpProc Config.chip s
  | .totpB32 => totpB32Proc Config.chip s
  | .expire => expireProc Config.chip s
  | .zeroize => zeroizeProc Config.chip s
  | .illegal _ => Run.fail .illegalCmd s

/-- Every command completes, by its procedure (rule R114). -/
theorem exec_eq (i : Instr) (s : State) : exec i s = .next (complete (procOf i s)) := by
  cases i <;> rfl

theorem exec_next (i : Instr) (s t : State) (h : exec i s = .next t) : t = complete (procOf i s) := by
  rw [exec_eq] at h; cases h; rfl

/-- The state in which a command's checks after its decode run: that with the decode step's KEY and KEY_LEN where the
decode step runs, else the state at completion (rule R139). -/
def afterDecode (i : Instr) (s : State) : State :=
  if decodeRuns i s = true then s.setKey Config.chip (decodedBytes s) else s

/-- What hotp_core has checked when it makes its request (rules R153 to R155), and the request (rule R151). -/
structure Asked (i : Instr) (s : State) (r : HmacRequest) : Prop where
  hashes : hashes i = true
  checks : CoreChecksPass s
  key : r.key = secretBytes s
  msg : r.msg.length = 8

/-- All that the procedure of a command can do. -/
inductive Effect (i : Instr) (s : State) : Run → Prop where
  /-- A check before the HMAC request failed. -/
  | stop (k : Cause) : k ≠ .hashLen → k ≠ .truncRange → Effect i s (Run.fail k (afterDecode i s))
  /-- The HMAC unit's answer has the wrong length. -/
  | wrongHash (r : HmacRequest) : Asked i (afterDecode i s) r →
      Effect i s (Run.fail .hashLen ((afterDecode i s).requestHmac r))
  /-- HOTP or HOTP_B32 wrote a code. -/
  | code (r : HmacRequest) (v : Nat) : Asked i (afterDecode i s) r → readsTime i = false → v < 2 ^ 31 →
      Effect i s (Run.ok (((afterDecode i s).requestHmac r).writeCode s.inputs.policy.digits.toNat
        (v % 10 ^ s.inputs.policy.digits.toNat)))
  /-- TOTP or TOTP_B32 wrote a code and TCOUNT. -/
  | timedCode (r : HmacRequest) (v tc : Nat) : Asked i (afterDecode i s) r → readsTime i = true → v < 2 ^ 31 →
      Effect i s (Run.ok ((((afterDecode i s).requestHmac r).writeCode s.inputs.policy.digits.toNat
        (v % 10 ^ s.inputs.policy.digits.toNat)).setTcount Config.chip tc))
  /-- NOP, or B32DEC after its decode. -/
  | done : hashes i = false → Effect i s (Run.ok (afterDecode i s))
  /-- EXPIRE wrote EXPIRY. -/
  | expired (v : Nat) : i = .expire → Effect i s (Run.ok (s.setExpiry Config.chip v))
  /-- ZEROIZE erased the secrets. -/
  | zeroized : i = .zeroize → Effect i s (zeroizeProc Config.chip s)

/-! ## The state after the decode -/

theorem afterDecode_runs (i : Instr) (s : State) (h : decodeRuns i s = true) :
    afterDecode i s = s.setKey Config.chip (decodedBytes s) := if_pos h

theorem afterDecode_skips (i : Instr) (s : State) (h : decodeRuns i s = false) : afterDecode i s = s :=
  if_neg (by simp [h])

theorem decodeRuns_textLen (i : Instr) (s : State) (h : decodeRuns i s = true) : s.inputs.textLen.toNat ≤ 192 := by
  simp only [decodeRuns, Bool.and_eq_true, decide_eq_true_eq] at h; exact h.2

theorem decodeRuns_of (i : Instr) (s : State) (hd : decodesText i = true) (ha : s.inputs.policy.alg ≠ 3)
    (ht : s.inputs.textLen.toNat ≤ 192) : decodeRuns i s = true := by
  rw [decodeRuns, hd, decide_eq_false ha, decide_eq_true ht, Bool.and_false]; rfl

theorem decodeRuns_not_decodes (i : Instr) (s : State) (h : decodesText i = false) : decodeRuns i s = false := by
  simp [decodeRuns, h]

theorem decodeRuns_badAlg (i : Instr) (s : State) (hh : hashes i = true) (ha : s.inputs.policy.alg = 3) :
    decodeRuns i s = false := by
  simp [decodeRuns, hh, ha]

theorem decodeRuns_long (i : Instr) (s : State) (h : 192 < s.inputs.textLen.toNat) : decodeRuns i s = false := by
  simp [decodeRuns, h]

/-- A command that decodes no text has nothing to do before its other checks. -/
theorem afterDecode_not_decodes (i : Instr) (s : State) (h : decodesText i = false) : afterDecode i s = s :=
  afterDecode_skips i s (decodeRuns_not_decodes i s h)

/-- The decode step writes KEY and KEY_LEN alone (rule R139). -/
theorem afterDecode_frame (i : Instr) (s : State) :
    (afterDecode i s).ie = s.ie ∧ (afterDecode i s).status = s.status ∧ (afterDecode i s).results = s.results
      ∧ (afterDecode i s).pending = s.pending ∧ (afterDecode i s).env = s.env
      ∧ (afterDecode i s).inputs = { s.inputs with keyLen := (afterDecode i s).inputs.keyLen } := by
  unfold afterDecode
  split <;> simp

/-- KEY after the decode step: the decoded bytes, then zeros (rule R139). -/
theorem afterDecode_read (i : Instr) (s : State) (a : Nat) :
    (afterDecode i s).mem.read a =
      if decodeRuns i s = true ∧ 0x100 ≤ a ∧ a < 0x180 then (decodedBytes s).getD (a - 0x100) 0
      else s.mem.read a := by
  cases h : decodeRuns i s with
  | true => rw [afterDecode_runs i s h, setKey_read]; simp
  | false => rw [afterDecode_skips i s h, if_neg (by simp)]

/-- Where the decode step runs, KEY and KEY_LEN hold what it decoded. -/
theorem afterDecode_keyHolds (i : Instr) (s : State) (h : decodeRuns i s = true) :
    KeyHolds (decodedBytes s) (afterDecode i s) := by
  refine ⟨?_, fun j hj => ?_⟩
  · rw [afterDecode_runs i s h]
    exact setKey_keyLen s _ (length_decodedBytes s (decodeRuns_textLen i s h))
  · rw [afterDecode_read, if_pos ⟨h, by omega, by omega⟩, Nat.add_sub_cancel_left]

theorem afterDecode_wf (i : Instr) (s : State) (hw : s.mem.wf) : (afterDecode i s).mem.wf := by
  unfold afterDecode
  split
  · exact wf_store _ _ _ hw
  · exact hw

/-- The offsets the memory lists after a decode (rule R139). -/
theorem afterDecode_mapped (i : Instr) (s : State) (hm : ∀ c ∈ s.mem, BufferOffset c.1) :
    ∀ c ∈ (afterDecode i s).mem, BufferOffset c.1 := by
  unfold afterDecode
  split
  · intro c hc
    rw [setKey_mem] at hc
    rcases mem_store _ _ _ c hc with h | h
    · exact hm c h
    · simp only [bufferBase_key, chip_keyCap, length_zeroPad] at h; unfold BufferOffset; omega
  · exact hm

/-! ## Each procedure -/

/-- hotp_core after a command's decode. -/
theorem hotpCore_effect (i : Instr) (s : State) (alg : Alg) (c : Nat) (hh : hashes i = true)
    (ht : readsTime i = false) : Effect i s (hotpCore Config.chip alg c (afterDecode i s)) := by
  have hp : (afterDecode i s).inputs.policy = s.inputs.policy := by rw [(afterDecode_frame i s).2.2.2.2.2]
  rcases hotpCore_cases alg c (afterDecode i s) with ⟨k, hk, -, e⟩ | ⟨hc, -, e⟩ | ⟨v, hc, -, -, hv, e⟩ <;> rw [e]
  · exact .stop k (by rintro rfl; simp at hk) (by rintro rfl; simp at hk)
  · exact .wrongHash _ ⟨hh, hc, rfl, length_counterBytes c⟩
  · rw [hp]; exact .code _ v ⟨hh, hc, rfl, length_counterBytes c⟩ ht hv

/-- TOTP's core after a command's decode. -/
theorem totpCore_effect (i : Instr) (s : State) (alg : Alg) (hh : hashes i = true) (ht : readsTime i = true) :
    Effect i s (totpCore Config.chip alg (afterDecode i s)) := by
  have hp : (afterDecode i s).inputs.policy = s.inputs.policy := by rw [(afterDecode_frame i s).2.2.2.2.2]
  by_cases hok : TripleOk (afterDecode i s)
  · rw [totpCore_of_ok alg _ hok]
    rcases hotpCore_cases alg (windowIndex (afterDecode i s)) (afterDecode i s) with
      ⟨k, hk, -, e⟩ | ⟨hc, -, e⟩ | ⟨v, hc, -, -, hv, e⟩ <;> rw [e]
    · exact .stop k (by rintro rfl; simp at hk) (by rintro rfl; simp at hk)
    · exact .wrongHash _ ⟨hh, hc, rfl, length_counterBytes _⟩
    · rw [hp]; exact .timedCode _ v _ ⟨hh, hc, rfl, length_counterBytes _⟩ ht hv
  · rw [totpCore]
    rcases withTriple_cases (afterDecode i s) _ with ⟨-, e⟩ | ⟨-, -, e⟩ | ⟨h, -⟩
    · rw [e]; exact .stop _ (by decide) (by decide)
    · rw [e]; exact .stop _ (by decide) (by decide)
    · exact absurd h hok

/-- A failed check before any decode step. -/
theorem stop_early (i : Instr) (s : State) (k : Cause) (h : decodeRuns i s = false) (h1 : k ≠ .hashLen)
    (h2 : k ≠ .truncRange) : Effect i s (Run.fail k s) := by
  have := Effect.stop (i := i) (s := s) k h1 h2
  rwa [afterDecode_skips i s h] at this

/-- The decode of a command whose algorithm check, if it has one, passed, and the part that runs after it. -/
theorem decodeText_effect (i : Instr) (s : State) (f : State → Run) (hd : decodesText i = true)
    (ha : hashes i = true → s.inputs.policy.alg ≠ 3) (hf : Effect i s (f (afterDecode i s))) :
    Effect i s ((decodeText Config.chip s).andThen f) := by
  have hr : s.inputs.textLen.toNat ≤ 192 → decodeRuns i s = true := by
    intro ht
    cases hh : hashes i with
    | true => exact decodeRuns_of i s hd (ha hh) ht
    | false => simp [decodeRuns, hd, hh, ht]
  rcases decodeText_cases s with ⟨h, e⟩ | ⟨out, ht, hdec, -, e⟩ | ⟨k, ht, hdec, hk, e⟩ <;> rw [e]
  · exact stop_early i s _ (decodeRuns_long i s h) (by decide) (by decide)
  · rwa [afterDecode_runs i s (hr ht), decodedBytes_ok s out hdec] at hf
  · have := Effect.stop (i := i) (s := s) k (by rintro rfl; simp at hk) (by rintro rfl; simp at hk)
    rwa [afterDecode_runs i s (hr ht), decodedBytes_error s k hdec] at this

theorem withAlg_effect (i : Instr) (s : State) (k : Alg → Run) (hh : hashes i = true)
    (hk : ∀ alg, s.inputs.policy.alg ≠ 3 → Effect i s (k alg)) : Effect i s (withAlg s k) := by
  rcases withAlg_cases s k with ⟨h3, e⟩ | ⟨alg, h, e⟩ <;> rw [e]
  · exact stop_early i s _ (decodeRuns_badAlg i s hh h3) (by decide) (by decide)
  · exact hk alg (by intro h3; rw [h3] at h; simp [digestOf] at h)

/-- All that the procedure of a command can do. -/
theorem procOf_effect (i : Instr) (s : State) : Effect i s (procOf i s) := by
  cases i with
  | nop => have := Effect.done (i := .nop) (s := s) rfl; rwa [afterDecode_not_decodes _ s rfl] at this
  | b32dec =>
    have h := decodeText_effect .b32dec s Run.ok rfl (by simp [hashes]) (.done rfl)
    rcases decodeText_cases s with ⟨-, e⟩ | ⟨out, -, -, -, e⟩ | ⟨k, -, -, -, e⟩ <;>
      · rw [e] at h; simpa [procOf, b32decProc, e] using h
  | hotp =>
    exact withAlg_effect _ s _ rfl fun alg _ => by
      have := hotpCore_effect .hotp s alg (s.inputs.counter.val Config.chip) rfl rfl
      rwa [afterDecode_not_decodes _ s rfl] at this
  | hotpB32 =>
    exact withAlg_effect _ s _ rfl fun alg h3 =>
      decodeText_effect _ s _ rfl (fun _ => h3) (hotpCore_effect _ s alg _ rfl rfl)
  | totp =>
    exact withAlg_effect _ s _ rfl fun alg _ => by
      have := totpCore_effect .totp s alg rfl rfl
      rwa [afterDecode_not_decodes _ s rfl] at this
  | totpB32 =>
    exact withAlg_effect _ s _ rfl fun alg h3 =>
      decodeText_effect _ s _ rfl (fun _ => h3) (totpCore_effect _ s alg rfl rfl)
  | expire =>
    rcases expireProc_cases s with ⟨-, e⟩ | ⟨-, -, e⟩ | ⟨-, -, e⟩ | ⟨-, -, e⟩ <;> rw [procOf, e]
    · exact stop_early _ s _ rfl (by decide) (by decide)
    · exact stop_early _ s _ rfl (by decide) (by decide)
    · exact stop_early _ s _ rfl (by decide) (by decide)
    · exact .expired _ rfl
  | zeroize => exact .zeroized rfl
  | illegal w => exact stop_early _ s _ rfl (by decide) (by decide)

/-- All that a completion can do. -/
theorem exec_effect (i : Instr) (s t : State) (h : exec i s = .next t) :
    ∃ r, Effect i s r ∧ t = complete r :=
  ⟨procOf i s, procOf_effect i s, exec_next i s t h⟩

/-- STATUS is written by the completion alone, not by the procedure (rule R114). -/
theorem effect_status {i : Instr} {s : State} {r : Run} (h : Effect i s r) : r.state.status = s.status := by
  have hf := (afterDecode_frame i s).2.1
  cases h with
  | stop k => exact hf
  | wrongHash r => exact hf
  | code r v => exact hf
  | timedCode r v tc => exact hf
  | done => exact hf
  | expired v => rfl
  | zeroized => rfl

end Sys2Proof.Laws
end

