-- ==== Sys2Proof/Laws/Step.lean ====
section
/-! SUPPORT. All that one step can do: every claim about `step` follows from `step_cases`. -/

namespace Sys2Proof.Laws

open Sys2Proof.Machine Sys2Proof.Safety

/-- `s'` is `s` but for the turns that are left. -/
abbrev TurnTaken (s s' : State) : Prop := ∃ ts, s' = s.withTurns ts

theorem turnTaken_self (s : State) : TurnTaken s s := ⟨s.env.turns, rfl⟩

/-- The host's turn is one move of its program. -/
theorem step_host (s : State) (ts : List Turn) (h : s.env.turns = .host :: ts) :
    step s = .next (hostMove Config.chip (s.withTurns ts)) := by
  rw [step, takeTurn, h]; rfl

/-- One step is a completion of the pending command, a move of the host, a reset, or nothing. -/
theorem step_cases (s t : State) (h : step s = .next t) :
    (∃ s', TurnTaken s s' ∧ s.status.busy = true ∧ exec s'.command s' = .next t)
      ∨ (∃ s', TurnTaken s s' ∧ t = hostMove Config.chip s')
      ∨ (∃ s', TurnTaken s s' ∧ t = hardReset s')
      ∨ ∃ s', TurnTaken s s' ∧ t = s' := by
  unfold step takeTurn at h
  cases ht : s.env.turns with
  | nil =>
    rw [ht] at h
    simp only at h
    cases hb : s.status.busy with
    | true =>
      rw [hb] at h
      exact .inl ⟨s, turnTaken_self s, rfl, h⟩
    | false =>
      rw [hb] at h
      by_cases hp : s.env.program = []
      · simp only [Bool.false_eq_true, if_false, hp, if_true, Host.Outcome.next.injEq] at h
        exact .inr (.inr (.inr ⟨s, turnTaken_self s, h.symm⟩))
      · simp only [Bool.false_eq_true, if_false, hp, Host.Outcome.next.injEq] at h
        exact .inr (.inl ⟨s, turnTaken_self s, h.symm⟩)
  | cons turn ts =>
    rw [ht] at h
    simp only at h
    cases turn with
    | engine =>
      cases hb : s.status.busy with
      | true =>
        simp only [moveOf, hb, if_true] at h
        exact .inl ⟨s.withTurns ts, ⟨ts, rfl⟩, rfl, h⟩
      | false =>
        simp only [moveOf, hb, Bool.false_eq_true, if_false, Host.Outcome.next.injEq] at h
        exact .inr (.inr (.inr ⟨s.withTurns ts, ⟨ts, rfl⟩, h.symm⟩))
    | host =>
      simp only [moveOf, Host.Outcome.next.injEq] at h
      exact .inr (.inl ⟨s.withTurns ts, ⟨ts, rfl⟩, h.symm⟩)
    | reset =>
      simp only [moveOf, Host.Outcome.next.injEq] at h
      exact .inr (.inr (.inl ⟨s.withTurns ts, ⟨ts, rfl⟩, h.symm⟩))

/-- Every step answers a next state: the engine has no traps (rule R214). -/
theorem step_next (s : State) : ∃ t, step s = .next t := by
  unfold step
  split
  · exact ⟨_, exec_eq _ _⟩
  · exact ⟨_, rfl⟩
  · exact ⟨_, rfl⟩
  · exact ⟨_, rfl⟩

/-- One step of a run. -/
theorem run_succ (M : Host.Core) (k : Nat) (s u : M.State) (h : M.step s = .next u) :
    M.run (k + 1) s = M.run k u := by
  unfold Host.Core.run
  cases k <;> simp only [h, Host.Core.run]

end Sys2Proof.Laws
end

