-- ==== Sys2Proof/Tests/Slice0.lean ====
section
/-! SUPPORT. Tests of single operations and steps, expected values from spec/95_test_vectors.md and the rules, and a
witness for the hypotheses of every statement of Certificates/Slice0/Obligations.lean. -/

namespace Sys2Proof.Tests

open Sys2Proof.Machine Sys2Proof.Safety

/-! ## Helpers -/

/-- The bytes of an ASCII text. -/
def ascii (t : String) : List Byte := t.toList.map fun c => BitVec.ofNat 8 c.toNat

/-- The 20-byte secret K20 of 95_test_vectors.md. -/
def k20 : List Byte := ascii "12345678901234567890"

/-- Base32 of K20 (95_test_vectors.md §1.4). -/
def k20Text : List Byte := ascii "GEZDGNBVGY3TQOJQGEZDGNBVGY3TQOJQ"

def withKey (k : List Byte) (s : State) : State :=
  (s.storeBuffer .key k).setKeyLen (BitVec.ofNat 8 k.length)

def withText (t : List Byte) (s : State) : State :=
  (s.storeBuffer .text t).setTextLen (BitVec.ofNat 8 t.length)

def withPolicy (digits dmin dmax : BitVec 8) (alg : BitVec 2) (s : State) : State :=
  { s with inputs := { s.inputs with policy := { digits := digits, dmin := dmin, dmax := dmax, alg := alg } } }

def withTriple (time epoch step : DWord) (s : State) : State :=
  { s with inputs :=
      { s.inputs with
        time := Reg64.ofVal Config.chip time.toNat, epoch := Reg64.ofVal Config.chip epoch.toNat,
        timeStep := Reg64.ofVal Config.chip step.toNat } }

def withTurns (ts : List Turn) (p : List HostOp) (s : State) : State :=
  { s with env := { s.env with turns := ts, program := p } }

/-- Reset, then the issue of `w`. -/
def pendingWord (w : Word) : State := State.reset.issue Config.chip w

/-- The state an outcome goes on in; `State.reset` where it stops. -/
def next (o : Host.Outcome State Fault Refusal) : State :=
  match o with
  | .next t => t
  | .fault _ => State.reset
  | .refused _ => State.reset

/-- The STATUS word after one step from `s` with `w` just issued. -/
def statusAfter (w : Nat) (s : State) : Word := (next (step (s.withFetchWord 32 w))).status.word

def k20State : State := withKey k20 State.reset

/-! ## WellFormed: each check refuses an ill-formed term -/

theorem test_wf_legal_word_refused : Instr.wellFormed (.illegal 0x00000002) = false := by decide
theorem test_wf_last_legal_word_refused : Instr.wellFormed (.illegal 0x00000007) = false := by decide
theorem test_wf_reserved_op : Instr.wellFormed (.illegal 0x00000008) = true := by decide
theorem test_wf_reserved_bit : Instr.wellFormed (.illegal 0x80000002) = true := by decide

/-! ## Decoding: words written out from rule R91 and 95_test_vectors.md §2.1 -/

theorem test_decode_nop : decode 0b00000000000000000000000000000000#32 = .nop := by decide
theorem test_decode_b32dec : decode 0b00000000000000000000000000000001#32 = .b32dec := by decide
theorem test_decode_hotp : decode 0b00000000000000000000000000000010#32 = .hotp := by decide
theorem test_decode_hotpB32 : decode 0b00000000000000000000000000000011#32 = .hotpB32 := by decide
theorem test_decode_totp : decode 0b00000000000000000000000000000100#32 = .totp := by decide
theorem test_decode_totpB32 : decode 0b00000000000000000000000000000101#32 = .totpB32 := by decide
theorem test_decode_expire : decode 0b00000000000000000000000000000110#32 = .expire := by decide
theorem test_decode_zeroize : decode 0b00000000000000000000000000000111#32 = .zeroize := by decide
theorem test_decode_reserved_op : decode 0b00000000000000000000000000001111#32 = .illegal 0xF := by decide
theorem test_decode_bit4 : decode 0b00000000000000000000000000010010#32 = .illegal 0x12 := by decide
theorem test_decode_bit31 : decode 0b10000000000000000000000000000010#32 = .illegal 0x80000002 := by decide
theorem test_decodeTableWord : decodeTableWord 32 6 = some .expire ∧ decodeTableWord 32 (2 ^ 32) = none := by decide

/-! ## Commands (95_test_vectors.md §2) -/

/-- §2.7: NOP clears the results and a FAIL left behind; IGN survives. -/
theorem test_nop :
    let s := { k20State with
      status := { busy := false, done := true, fail := false, ign := true, cause := 0 }
      results := { codeLen := 6, codeVal := 755224, tcount := { lo := 1, hi := 0 }, expiry := { lo := 0, hi := 0 } }
      mem := k20State.mem.store 0x080 (ascii "755224") }
    let t := next (step (s.withFetchWord 32 0))
    t.status.word = 0xA ∧ t.results = Results.zero ∧ t.mem = k20State.mem := by decide +kernel

/-- §2.5: "MzXw6YtBoI" is "foobar". -/
theorem test_b32dec_mixed_case :
    next (execB32dec (withText (ascii "MzXw6YtBoI") (withKey k20 State.reset)))
      = { withText (ascii "MzXw6YtBoI") (withKey (ascii "foobar") State.reset) with
          status := { busy := false, done := true, fail := false, ign := false, cause := 0 } } := by decide +kernel

/-- §2.5: "AB=1" is B32_PAD, not B32_CHAR, and KEY is erased. -/
theorem test_b32dec_pad_before_char :
    (next (execB32dec (withText (ascii "AB=1") k20State))).status.word = 0x506
      ∧ (next (execB32dec (withText (ascii "AB=1") k20State))).mem = (withText (ascii "AB=1") State.reset).mem
      ∧ (next (execB32dec (withText (ascii "AB=1") k20State))).inputs.keyLen = 0 := by decide +kernel

/-- §2.3.4: BAD_ALG comes before EMPTY_SECRET; after reset HOTP is EMPTY_SECRET (program P5). -/
theorem test_hotp_bad_alg_first :
    statusAfter 2 (withPolicy 6 6 8 3 State.reset) = 0x206 ∧ statusAfter 2 State.reset = 0x606 := by decide +kernel

/-- §2.3.4: CODE_CAP only after the policy check. -/
theorem test_hotp_code_cap :
    statusAfter 2 (withPolicy 11 0 10 0 k20State) = 0x706 ∧ statusAfter 2 (withPolicy 11 0 11 0 k20State) = 0x806 := by
  decide +kernel

/-- §2.3.4: "AB1" is B32_CHAR before DIGIT_POLICY. -/
theorem test_hotpB32_char : statusAfter 3 (withPolicy 6 8 6 0 (withText (ascii "AB1") k20State)) = 0x406 := by
  decide +kernel

/-- §2.3.4: KEY keeps the decode when a later check fails (decision D41). -/
theorem test_hotpB32_keeps_key :
    (next (execHotpB32 (withPolicy 6 8 6 0 (withText k20Text State.reset)))).status.word = 0x706
      ∧ (next (execHotpB32 (withPolicy 6 8 6 0 (withText k20Text State.reset)))).secret = k20 := by decide +kernel

/-- §2.4.2: ZERO_STEP before TIME_BEFORE_EPOCH, and that before EMPTY_SECRET. -/
theorem test_totp_checks :
    statusAfter 4 (withTriple 0 5 0 k20State) = 0x906 ∧ statusAfter 4 (withTriple 0 5 30 State.reset) = 0xA06 := by
  decide +kernel

/-- §2.4.2: the decode comes before the time checks, and its KEY stands (decision D37). -/
theorem test_totpB32_decodes_first :
    (next (execTotpB32 (withTriple 5 0 0 (withText k20Text State.reset)))).status.word = 0x906
      ∧ (next (execTotpB32 (withTriple 5 0 0 (withText k20Text State.reset)))).inputs.keyLen = 20 := by decide +kernel

/-- §2.3.4: BAD_ALG comes before the decode, so KEY and KEY_LEN stay. -/
theorem test_hotpB32_bad_alg_keeps_key :
    let s := withPolicy 6 6 8 3 (withText k20Text (withKey (ascii "foobar") State.reset))
    (next (execHotpB32 s)).status.word = 0x206 ∧ (next (execHotpB32 s)).secret = ascii "foobar" := by decide +kernel

/-- §2.6: the last window that fits, and the first that does not. -/
theorem test_expire_edge :
    pairValue (next (execExpire (withTriple (0 - 17) 0 30 State.reset))).results.expiry = 2 ^ 64 - 16
      ∧ (next (execExpire (withTriple (0 - 16) 0 30 State.reset))).status.word = 0xD06 := by decide +kernel

/-- §2.6: an epoch that is not 0, at a boundary. -/
theorem test_expire_boundary :
    pairValue (next (execExpire (withTriple 130 100 30 State.reset))).results.expiry = 160 := by decide +kernel

/-- §2.7: ZEROIZE erases KEY, TEXT and the lengths alone. -/
theorem test_zeroize :
    next (execZeroize (withPolicy 8 6 8 1 (withText k20Text k20State)))
      = { withPolicy 8 6 8 1 State.reset with
          status := { busy := false, done := true, fail := false, ign := false, cause := 0 } } := by decide +kernel

/-- §2.8: an illegal word, whatever ALG is. -/
theorem test_illegal : statusAfter 0x12 (withPolicy 6 6 8 3 k20State) = 0x106 := by decide +kernel

/-! ## The stages after the HMAC unit's answer (95_test_vectors.md §2.3) -/

/-- §2.3.1, counter 1: the answer is not mask-affected; offset 11. -/
def hmacCounter1 : List Byte :=
  [0x75, 0xa4, 0x8a, 0x19, 0xd4, 0xcb, 0xe1, 0x00, 0x64, 0x4e, 0x8a, 0xc1, 0x39, 0x7e, 0xea, 0x74, 0x7a, 0x2d, 0x33, 0xab]

theorem test_stages_rfc4226 :
    (complete (hashStages Config.chip .sha1 hmacCounter1 k20State)).results.codeVal = 0x0004616A
      ∧ (complete (hashStages Config.chip .sha1 hmacCounter1 k20State)).readWord Config.chip .code 0 = 0x30373832
      ∧ (complete (hashStages Config.chip .sha1 hmacCounter1 k20State)).readWord Config.chip .code 1 = 0x00003238 := by decide +kernel

/-- §2.3.5: the largest value, by the mask. -/
theorem test_stages_mask :
    (hashStages Config.chip .sha1 (List.replicate 20 0xFF) (withPolicy 10 0 10 0 k20State)).state.mem.bytes 0x080 16
      = ascii "2147483647" ++ List.replicate 6 0 := by decide +kernel

/-- §2.3.5: SHA-512 takes the offset from byte 63. -/
theorem test_stages_last_byte :
    (hashStages Config.chip .sha512 (List.replicate 15 0xAA ++ [0x12, 0x34, 0x56, 0x78] ++ List.replicate 44 0 ++ [0x0F])
      (withPolicy 8 0 10 2 k20State)).state.mem.bytes 0x080 8 = ascii "05419896" := by decide +kernel

/-- §2.3.5: an answer that is too long fails. -/
theorem test_stages_long : (hashStages Config.chip .sha1 (List.replicate 21 0) k20State).outcome = some .hashLen := by decide +kernel

/-- §2.3.3: the counter's message. -/
theorem test_counter_message :
    counterBytes Config.chip 0x0123456789ABCDEF = [0x01, 0x23, 0x45, 0x67, 0x89, 0xAB, 0xCD, 0xEF] := by decide +kernel

/-! ## The bus (95_test_vectors.md §2.2) -/

theorem test_rd_identification :
    readAt 0x000 State.reset = (0x514F5450, .okay) ∧ readAt 0x004 State.reset = (0x010AC080, .okay) := by decide +kernel

theorem test_rd_bad_offsets :
    readAt 0x012 State.reset = (0, .busErr) ∧ readAt 0x058 State.reset = (0, .busErr)
      ∧ readAt 0x090 State.reset = (0, .busErr) ∧ readAt 0x180 State.reset = (0, .busErr)
      ∧ readAt 0x2C0 State.reset = (0, .busErr) := by decide +kernel

theorem test_wr_policy_all_ones :
    readAt 0x014 (afterWrite 0x014 0xFFFFFFFF State.reset) = (0x03FFFFFF, .okay) := by decide +kernel

theorem test_wr_text_word :
    (afterWrite 0x200 0x34333231 State.reset).mem.bytes 0x200 4 = ascii "1234"
      ∧ readAt 0x200 (afterWrite 0x200 0x34333231 State.reset) = (0x34333231, .okay) := by decide +kernel

theorem test_status_w1c :
    (Status.w1c 0x2 { busy := false, done := true, fail := true, ign := true, cause := 5 }).word = 0x50C
      ∧ (Status.w1c 0xA { busy := false, done := true, fail := true, ign := true, cause := 5 }).word = 0x504 := by
  decide +kernel

theorem test_wr_while_busy :
    (afterWrite 0x020 5 (pendingWord 6)).status.word = 0x9
      ∧ (afterWrite 0x020 5 (pendingWord 6)).inputs = State.reset.inputs
      ∧ (afterWrite 0x040 5 (pendingWord 6)).status.word = 0x1
      ∧ (afterWrite 0x008 1 (pendingWord 6)).ie = true := by decide +kernel

/-- Program P5, from EXPIRE's issue on: WAIT polls while BUSY = 1, and the completion comes at the third turn. -/
theorem test_wait_polls :
    (next (step (next (step (withTurns [.host, .engine] [.wait] (pendingWord 6)))))).status.word = 0x2
      ∧ (next (step (withTurns [.host, .engine] [.wait] (pendingWord 6)))).env.program = [.wait] := by decide +kernel

/-- §3, P2's first words: WRBYTES packs TEXT little-endian. -/
theorem test_wrBytes :
    wrBytes .text (ascii "GEZDGN") = [.wr 0x200 0x445A4547, .wr 0x204 0x00004E47] := by decide +kernel

theorem test_setPol : setPol 8 6 8 2 = [.wr 0x014 0x02080608] := by decide +kernel

/-! ## Witnesses: a state and operands that meet every hypothesis of a statement together -/

theorem witness_DecodeEncodeRoundTrip :
    Instr.wellFormed (.illegal 0xFFFFFFFF) = true ∧ Instr.wellFormed .totpB32 = true := by decide

theorem witness_ExactlyEightWordsAreLegal : 8 ≤ (0x00000008 : Word).toNat ∧ 8 ≤ (0xFFFFFFFF : Word).toNat := by decide

theorem witness_StepRunsPendingCommand :
    ((pendingWord 6).status.busy = true ∧ decode (pendingWord 6).pending = .expire ∧ (pendingWord 6).env.turns = [])
      ∧ (withTurns [.engine, .host] [] (pendingWord 6)).status.busy = true
      ∧ decode (withTurns [.engine, .host] [] (pendingWord 6)).pending = .expire
      ∧ (withTurns [.engine, .host] [] (pendingWord 6)).env.turns = .engine :: [.host] := by decide +kernel

theorem witness_IdleEngineDoesNotStep :
    ((withTurns [.engine] [.wait] k20State).status.busy = false
        ∧ (withTurns [.engine] [.wait] k20State).env.turns = .engine :: [])
      ∧ k20State.status.busy = false ∧ k20State.env.turns = [] ∧ k20State.env.program = [] := by decide +kernel

theorem witness_ReadTransactionChangesNothing :
    (withTurns [.host, .engine] [.rd 0x010, .wait] (pendingWord 2)).env.turns = .host :: [.engine]
      ∧ (withTurns [.host, .engine] [.rd 0x010, .wait] (pendingWord 2)).env.program = .rd 0x010 :: [.wait] := by
  decide +kernel

theorem witness_WriteTransactionIsOneMove :
    (withTurns [.host] [.wr 0x00C 2] k20State).env.turns = .host :: []
      ∧ (withTurns [.host] [.wr 0x00C 2] k20State).env.program = .wr 0x00C 2 :: [] := by decide +kernel

theorem witness_WaitPollsUntilNotBusy :
    (withTurns [.host] [.wait] (pendingWord 2)).env.turns = .host :: []
      ∧ (withTurns [.host] [.wait] (pendingWord 2)).env.program = .wait :: []
      ∧ (withTurns [.host] [.wait] (pendingWord 2)).status.busy = true := by decide +kernel

theorem witness_ResetAbandonsPendingCommand :
    (withTurns [.reset, .host] [] (pendingWord 3)).env.turns = .reset :: [.host]
      ∧ (withTurns [.reset, .host] [] (pendingWord 3)).status.busy = true := by decide +kernel

theorem witness_IssuedInstructionRuns :
    Instr.wellFormed (.illegal 0x10) = true
      ∧ (withTurns [.host, .engine] (issueOp (.illegal 0x10) ++ [.wait]) k20State).status.busy = false
      ∧ (withTurns [.host, .engine] (issueOp (.illegal 0x10) ++ [.wait]) k20State).env.program
          = issueOp (.illegal 0x10) ++ [.wait]
      ∧ (withTurns [.host, .engine] (issueOp (.illegal 0x10) ++ [.wait]) k20State).env.turns = .host :: .engine :: [] := by
  decide +kernel

/-- The holes of the map at both ends, and a misaligned offset; and the mapped words beside them. -/
theorem witness_BusErrorExactlyOffTheMap :
    (NoTarget 0x058 ∧ NoTarget 0x07C ∧ NoTarget 0x090 ∧ NoTarget 0x0FC ∧ NoTarget 0x180 ∧ NoTarget 0x1FC
        ∧ NoTarget 0x2C0 ∧ NoTarget 0xFFC ∧ NoTarget 0x101)
      ∧ ¬NoTarget 0x054 ∧ ¬NoTarget 0x080 ∧ ¬NoTarget 0x08C ∧ ¬NoTarget 0x100 ∧ ¬NoTarget 0x17C ∧ ¬NoTarget 0x200
        ∧ ¬NoTarget 0x2BC := by omega

theorem witness_BufferWordsPackLittleEndian :
    (DataOffset 0x100 ∧ DataOffset 0x17C ∧ DataOffset 0x200 ∧ DataOffset 0x2BC ∧ k20State.status.busy = false)
      ∧ ((0x080 % 4 = 0 ∧ 0x080 ≤ 0x080 ∧ 0x080 < 0x090) ∧ 0x08C % 4 = 0 ∧ 0x080 ≤ 0x08C ∧ 0x08C < 0x090) := by
  decide +kernel

theorem witness_InputWriteReadsBack :
    k20State.status.busy = false ∧ InputOffset 0x014 ∧ InputOffset 0x03C ∧ DataOffset 0x100 ∧ DataOffset 0x2BC := by
  decide +kernel

theorem witness_InputWriteTouchesOneWord :
    k20State.status.busy = false ∧ InputOffset 0x014 ∧ DataOffset 0x17C ∧ (0x014 : Offset) ≠ 0x018
      ∧ (0x17C : Offset) ≠ 0x100 := by decide +kernel

/-- A word of each clause, at the ends of its range. -/
theorem witness_WritesWhileBusyAreDropped :
    (pendingWord 2).status.busy = true ∧ InputOffset 0x014 ∧ InputOffset 0x03C ∧ DataOffset 0x100 ∧ DataOffset 0x2BC
      ∧ ReadOnlyOffset 0x000 ∧ ReadOnlyOffset 0x004 ∧ ReadOnlyOffset 0x040 ∧ ReadOnlyOffset 0x054
      ∧ ReadOnlyOffset 0x080 ∧ ReadOnlyOffset 0x08C := by decide +kernel

theorem witness_ReadOnlyWritesAreIgnored :
    ReadOnlyOffset 0x000 ∧ ReadOnlyOffset 0x054 ∧ ReadOnlyOffset 0x08C ∧ ¬ReadOnlyOffset 0x008
      ∧ k20State.status.busy = false := by decide +kernel

theorem witness_IssueLatchesAndClears : k20State.status.busy = false := by decide +kernel

theorem witness_IrqFollowsDoneAndEnable :
    (∃ t, exec .nop { pendingWord 0 with ie := true } = .next t ∧ t.irq = true)
      ∧ (0x2 : Word)[1] = true ∧ (0x0 : Word)[0] = false ∧ k20State.status.busy = false :=
  ⟨⟨_, rfl, by decide +kernel⟩, by decide, by decide, by decide +kernel⟩

theorem witness_CompletionOrdersWithWrites :
    ∃ t, (pendingWord 6).status.busy = true ∧ (pendingWord 6).status.done = false
      ∧ exec .expire (pendingWord 6) = .next t :=
  ⟨_, by decide +kernel, by decide +kernel, rfl⟩

theorem witness_CauseCodesInStatus : (pendingWord 6).status.ign = false := by decide +kernel

theorem witness_TruncRangeIsNeverReported : ∃ t, exec .hotp (pendingWord 2) = .next t := ⟨_, rfl⟩

theorem witness_FailureLeavesResultsClear :
    ∃ t, exec .hotp (pendingWord 2) = .next t ∧ t.status.fail = true ∧ ResultsClear (pendingWord 2) :=
  ⟨_, rfl, by decide +kernel, by decide +kernel⟩

/-- Failures where the decode step does not run: HOTP, which decodes nothing; HOTP_B32 with ALG = 3; B32DEC of a text one
character too long. And two where it runs: a text that does not decode, and one that does, before DIGIT_POLICY. -/
theorem witness_FailuresArePrecise :
    (∃ t, exec .hotp (pendingWord 2) = .next t ∧ t.status.fail = true ∧ decodeRuns .hotp (pendingWord 2) = false)
      ∧ (∃ t, exec .hotpB32 (withPolicy 6 6 8 3 (withText k20Text (pendingWord 3))) = .next t ∧ t.status.fail = true
        ∧ decodeRuns .hotpB32 (withPolicy 6 6 8 3 (withText k20Text (pendingWord 3))) = false)
      ∧ (∃ t, exec .b32dec ((pendingWord 1).setTextLen 193) = .next t ∧ t.status.fail = true
        ∧ decodeRuns .b32dec ((pendingWord 1).setTextLen 193) = false)
      ∧ (∃ t, exec .hotpB32 (withText (ascii "AB1") (pendingWord 3)) = .next t ∧ t.status.fail = true
        ∧ decodeRuns .hotpB32 (withText (ascii "AB1") (pendingWord 3)) = true)
      ∧ ∃ t, exec .totpB32 (withPolicy 6 8 6 0 (withText k20Text (pendingWord 5))) = .next t ∧ t.status.fail = true
        ∧ decodeRuns .totpB32 (withPolicy 6 8 6 0 (withText k20Text (pendingWord 5))) = true :=
  ⟨⟨_, rfl, by decide +kernel, by decide +kernel⟩, ⟨_, rfl, by decide +kernel, by decide +kernel⟩,
    ⟨_, rfl, by decide +kernel, by decide +kernel⟩, ⟨_, rfl, by decide +kernel, by decide +kernel⟩,
    ⟨_, rfl, by decide +kernel, by decide +kernel⟩⟩

theorem witness_CommandRegisterFrame :
    (∃ t, exec .expire (pendingWord 6) = .next t ∧ hashes .expire = false
        ∧ decodeRuns .expire (pendingWord 6) = false)
      ∧ ∃ t, exec .hotp (pendingWord 2) = .next t ∧ Instr.hotp ≠ .zeroize ∧ Instr.hotp ≠ .totp ∧ Instr.hotp ≠ .expire :=
  ⟨⟨_, rfl, rfl, by decide +kernel⟩, ⟨_, rfl, by decide, by decide, by decide⟩⟩

/-- HOTP at the byte after CODE[0..DIGITS), B32DEC at the byte after KEY, ZEROIZE at the byte after TEXT. -/
theorem witness_CommandMemoryFrame :
    (∃ t, exec .hotp (pendingWord 2) = .next t
        ∧ ¬(hashes .hotp = true ∧ t.status.fail = false
          ∧ 0x080 ≤ 0x086 ∧ 0x086 < 0x080 + (pendingWord 2).inputs.policy.digits.toNat)
        ∧ ¬((decodeRuns .hotp (pendingWord 2) = true ∨ Instr.hotp = .zeroize) ∧ 0x100 ≤ 0x086 ∧ 0x086 < 0x180))
      ∧ (∃ t, exec .b32dec (withText k20Text (pendingWord 1)) = .next t
        ∧ ¬(hashes .b32dec = true ∧ t.status.fail = false
          ∧ 0x080 ≤ 0x180 ∧ 0x180 < 0x080 + (pendingWord 1).inputs.policy.digits.toNat)
        ∧ ¬((decodeRuns .b32dec (withText k20Text (pendingWord 1)) = true ∨ Instr.b32dec = .zeroize) ∧ 0x100 ≤ 0x180 ∧ 0x180 < 0x180)
        ∧ ¬(Instr.b32dec = .zeroize ∧ 0x200 ≤ 0x180 ∧ 0x180 < 0x2C0))
      ∧ ∃ t, exec .zeroize (pendingWord 7) = .next t
        ∧ ¬((decodeRuns .zeroize (pendingWord 7) = true ∨ Instr.zeroize = .zeroize) ∧ 0x100 ≤ 0x2C0 ∧ 0x2C0 < 0x180)
        ∧ ¬(Instr.zeroize = .zeroize ∧ 0x200 ≤ 0x2C0 ∧ 0x2C0 < 0x2C0) :=
  ⟨⟨_, rfl, fun h => absurd h.2.2.2 (by decide), fun h => absurd h.2.1 (by decide)⟩,
    ⟨_, rfl, fun h => absurd h.1 (by decide), fun h => absurd h.2.2 (by decide), fun h => absurd h.1 (by decide)⟩,
    ⟨_, rfl, fun h => absurd h.2.2 (by decide), fun h => absurd h.2.2 (by decide)⟩⟩

/-- Two states after issue that differ in CTRL, in IGN and in KEY above KEY_LEN. -/
theorem witness_OutcomeDependsOnInputsAlone :
    let s := withKey k20 (pendingWord 2)
    let s' := { withKey k20 (pendingWord 2) with
      ie := true
      status := { (pendingWord 2).status with ign := true }
      mem := (withKey k20 (pendingWord 2)).mem.store 0x114 [0x55] }
    s.inputs = s'.inputs ∧ ResultsClear s ∧ ResultsClear s'
      ∧ (∀ j < 20, s.mem.read (0x100 + j) = s'.mem.read (0x100 + j)) ∧ s.mem ≠ s'.mem
      ∧ s.inputs.keyLen = 20 ∧ s.inputs.textLen = 0
      ∧ (∃ t, exec .hotp s = .next t) ∧ ∃ t', exec .hotp s' = .next t' :=
  ⟨rfl, by decide +kernel, by decide +kernel, by decide +kernel, by decide +kernel, by decide +kernel,
    by decide +kernel, ⟨_, rfl⟩, ⟨_, rfl⟩⟩

theorem witness_BusyIntervalCannotChangeOutcome :
    ∃ t, (withTurns [] [.wr 0x100 1, .wr 0x00C 7] (pendingWord 6)).status.busy = true
      ∧ exec .expire (withTurns [] [.wr 0x100 1, .wr 0x00C 7] (pendingWord 6)) = .next t :=
  ⟨_, by decide +kernel, rfl⟩

theorem witness_AtMostOneHmacRequest : ∃ t, exec .totp (withKey k20 (pendingWord 4)) = .next t := ⟨_, rfl⟩

theorem witness_IllegalWordFails :
    ((0x00000010 : Word).extractLsb' 4 28 ≠ 0) ∧ 8 ≤ ((0x00000008 : Word).extractLsb' 0 4).toNat := by decide

/-- The symbols of "Mz2" with their values of rule R130. -/
theorem witness_Base32BytesAreTheLeadingBits : List.Forall₂ IsSymbol (ascii "Mz2") [12, 25, 26] :=
  .cons (by decide +kernel) (.cons (by decide +kernel) (.cons (by decide +kernel) .nil))

/-- "A" and then '1', which is no symbol; after a '=' the same byte is the bad one of the other clause. -/
theorem witness_Base32FirstBadByteDecides :
    List.Forall₂ IsSymbol (ascii "A") [0] ∧ (0x31 : Byte) ≠ 0x3D ∧ ∀ v, ¬IsSymbol 0x31 v := by
  have h : ∀ v : Fin 32, ¬IsSymbol 0x31 v.val := by decide +kernel
  exact ⟨.cons (by decide +kernel) .nil, by decide, fun v hv => h ⟨v, hv.1⟩ hv⟩

theorem witness_B32decWritesKey :
    (withText k20Text (pendingWord 1)).inputs.textLen.toNat ≤ 192
      ∧ b32decode (textBytes (withText k20Text (pendingWord 1))) = .ok k20 :=
  ⟨by decide +kernel, by decide +kernel⟩

/-- Each failure, and both sides of the length limit. -/
theorem witness_B32decFailures :
    ((withText (ascii "AB=C") (pendingWord 1)).inputs.textLen.toNat ≤ 192
        ∧ b32decode (textBytes (withText (ascii "AB=C") (pendingWord 1))) = .error .b32Pad)
      ∧ ((pendingWord 1).setTextLen 192).inputs.textLen.toNat ≤ 192
      ∧ 192 < ((pendingWord 1).setTextLen 193).inputs.textLen.toNat :=
  ⟨⟨by decide +kernel, by decide +kernel⟩, by decide +kernel, by decide +kernel⟩

/-- A SHA-1 answer whose window lies in it, and three bytes, whose window cannot. -/
theorem witness_TruncationReadsTheWindow :
    ((hmacCounter1.getLastD 0) &&& 0x0F).toNat + 4 ≤ hmacCounter1.length
      ∧ ([0x01, 0x02, 0x00] : List Byte).length < ((([0x01, 0x02, 0x00] : List Byte).getLastD 0) &&& 0x0F).toNat + 4 := by
  decide +kernel

theorem witness_RenderedDigitsStandForTheValue : 0 < 10 ^ 0 ∧ 82162583 < 10 ^ 10 ∧ 999999 < 10 ^ 6 := by decide

/-- The outcome clauses for an answer of the right length and for one too short are both met by some answer. -/
theorem witness_AnyHmacAnswerIsChecked :
    digestOf (withPolicy 10 0 10 2 k20State).inputs.policy.alg = some (.sha512, 64)
      ∧ (withPolicy 10 0 10 2 k20State).inputs.policy.digits.toNat ≤ 10
      ∧ (List.replicate 64 (0xAB : Byte)).length = 64 ∧ ([] : List Byte).length ≠ 64 := by decide +kernel

theorem witness_HotpComputesCode :
    digestOf k20State.inputs.policy.alg = some (.sha1, 20) ∧ CoreChecksPass k20State := by decide +kernel

theorem witness_TotpComputesCode :
    digestOf (withTriple 59 0 30 k20State).inputs.policy.alg = some (.sha1, 20)
      ∧ CoreChecksPass (withTriple 59 0 30 k20State) ∧ TripleOk (withTriple 59 0 30 k20State) := by decide +kernel

/-- The state of program P2 at the issue of TOTP_B32. -/
def p2State : State := withPolicy 8 6 8 0 (withTriple 59 0 30 (withText k20Text State.reset))

theorem witness_HotpB32ComputesCode :
    digestOf p2State.inputs.policy.alg = some (.sha1, 20) ∧ p2State.inputs.textLen.toNat ≤ 192
      ∧ b32decode (textBytes p2State) = .ok k20 ∧ k20 ≠ []
      ∧ p2State.inputs.policy.dmin.toNat ≤ p2State.inputs.policy.digits.toNat
      ∧ p2State.inputs.policy.digits.toNat ≤ p2State.inputs.policy.dmax.toNat
      ∧ p2State.inputs.policy.digits.toNat ≤ 10 :=
  ⟨by decide +kernel, by decide +kernel, by decide +kernel, by decide +kernel, by decide +kernel, by decide +kernel,
    by decide +kernel⟩

/-- The hypotheses of TotpB32ComputesCode: those above and a good triple. -/
theorem witness_TotpB32ComputesCode :
    digestOf p2State.inputs.policy.alg = some (.sha1, 20) ∧ p2State.inputs.textLen.toNat ≤ 192
      ∧ b32decode (textBytes p2State) = .ok k20 ∧ k20 ≠ [] ∧ TripleOk p2State
      ∧ p2State.inputs.policy.dmin.toNat ≤ p2State.inputs.policy.digits.toNat
      ∧ p2State.inputs.policy.digits.toNat ≤ p2State.inputs.policy.dmax.toNat
      ∧ p2State.inputs.policy.digits.toNat ≤ 10 :=
  ⟨by decide +kernel, by decide +kernel, by decide +kernel, by decide +kernel, by decide +kernel, by decide +kernel,
    by decide +kernel, by decide +kernel⟩

/-- A decode that is ok, and one that fails, with a legal digest; and the reserved digest. -/
theorem witness_B32VariantsDelegate :
    (∃ t, exec .b32dec p2State = .next t ∧ p2State.inputs.policy.alg ≠ 3 ∧ t.status.fail = false)
      ∧ (∃ t, exec .b32dec (withText (ascii "AB1") State.reset) = .next t
        ∧ (withText (ascii "AB1") State.reset).inputs.policy.alg ≠ 3 ∧ t.status.fail = true)
      ∧ ∃ t, exec .b32dec (withPolicy 6 6 8 3 p2State) = .next t ∧ (withPolicy 6 6 8 3 p2State).inputs.policy.alg = 3 :=
  ⟨⟨_, rfl, by decide +kernel, by decide +kernel⟩, ⟨_, rfl, by decide +kernel, by decide +kernel⟩,
    ⟨_, rfl, by decide +kernel⟩⟩

theorem witness_TotpDelegatesToHotp :
    let s := withTriple 59 0 30 k20State
    s.inputs.policy.alg ≠ 3 ∧ TripleOk s ∧ pairValue ⟨1, 0⟩ = windowIndex s
      ∧ (∃ t, exec .totp s = .next t)
      ∧ ∃ u, exec .hotp { s with inputs := { s.inputs with counter := ⟨1, 0⟩ } } = .next u :=
  ⟨by decide +kernel, by decide +kernel, by decide +kernel, ⟨_, rfl⟩, ⟨_, rfl⟩⟩

theorem witness_ZeroDigitsGiveAnEmptyCode :
    let s := withPolicy 0 0 10 0 k20State
    digestOf s.inputs.policy.alg = some (.sha1, 20) ∧ s.inputs.policy.digits = 0 ∧ s.inputs.policy.dmin = 0
      ∧ 1 ≤ s.inputs.keyLen.toNat ∧ s.inputs.keyLen.toNat ≤ 128 ∧ ResultsClear s := by decide +kernel

theorem witness_ExpireComputesWindowEnd :
    TripleOk (withTriple (0 - 17) 0 30 State.reset) ∧ windowEnd (withTriple (0 - 17) 0 30 State.reset) < 2 ^ 64 := by
  decide +kernel

/-- The three failures, each at the edge of the next. -/
theorem witness_ExpireFailures :
    pairValue (withTriple 0 5 0 State.reset).inputs.timeStep = 0
      ∧ (pairValue (withTriple 5 6 30 State.reset).inputs.timeStep ≠ 0
        ∧ pairValue (withTriple 5 6 30 State.reset).inputs.time < pairValue (withTriple 5 6 30 State.reset).inputs.epoch)
      ∧ TripleOk (withTriple (0 - 16) 0 30 State.reset) ∧ TripleOk (withTriple (0 - 17) 0 30 State.reset)
      ∧ 2 ^ 64 ≤ (2 ^ 64 - 16) - ((2 ^ 64 - 16) - 0) % 30 + 30
      ∧ pairValue (withTriple (0 - 16) 0 30 State.reset).inputs.time = 2 ^ 64 - 16 := by decide +kernel

theorem witness_ExpiryIsTheNextBoundary :
    ∃ t, exec .expire (withTriple 130 100 30 State.reset) = .next t ∧ t.status.fail = false ∧ 130 < 160
      ∧ (160 - 100) % 30 = 0 :=
  ⟨_, rfl, by decide +kernel, by decide, by decide⟩

theorem witness_PendingCommandEnds :
    (withTurns [.host, .host, .engine] [.wait] (pendingWord 2)).status.busy = true := by decide +kernel

theorem witness_StatusInvariantsHold :
    ∃ t, StatusOk (pendingWord 6).status ∧ step (pendingWord 6) = .next t ∧ Reachable { State.reset with env := Env.start } :=
  ⟨_, by decide +kernel, rfl, .start _⟩

theorem witness_StepKeepsInvariant : ∃ t, Inv (pendingWord 6) ∧ step (pendingWord 6) = .next t :=
  ⟨_, ⟨by decide +kernel, by decide +kernel, by decide +kernel, fun _ => by decide +kernel, by decide +kernel,
    by decide +kernel, by decide +kernel, by decide +kernel⟩, rfl⟩

end Sys2Proof.Tests
end

section
/-! PROOF. A command's outcome is a function of its inputs (rules R15, R39, R40). The argument is relational: `Alike`
relates two states that agree on what a command may read or report, and every part of a procedure takes alike states to
alike runs. -/

namespace Sys2Proof.Proofs

open Sys2Proof.Machine Sys2Proof.Safety Sys2Proof.Laws

/-- The offsets whose bytes count where the input registers are `x`: CODE, KEY[0..KEY_LEN) and TEXT[0..TEXT_LEN). -/
def Observed (x : Inputs) (a : Nat) : Prop :=
  (0x080 ≤ a ∧ a < 0x090)
    ∨ (0x100 ≤ a ∧ a < 0x180 ∧ a < 0x100 + x.keyLen.toNat)
    ∨ (0x200 ≤ a ∧ a < 0x2C0 ∧ a < 0x200 + x.textLen.toNat)

/-- The states agree on the input registers, the results and the observed bytes. CTRL, STATUS, `pending`, the
environment and every other byte are free. -/
structure Alike (s s' : State) : Prop where
  inputs : s'.inputs = s.inputs
  results : s'.results = s.results
  bytes : ∀ a, Observed s.inputs a → s'.mem.read a = s.mem.read a

/-- The runs end in alike states with the same outcome. -/
structure RunsAlike (r r' : Run) : Prop where
  state : Alike r.state r'.state
  outcome : r'.outcome = r.outcome

section
variable {s s' : State}

/-! ## Operands -/

/-- States after issue that agree on the inputs are alike: issue has cleared the results. -/
theorem alike_of_inputs (hi : s.inputs = s'.inputs) (hc : ResultsClear s) (hc' : ResultsClear s')
    (hkey : ∀ j < s.inputs.keyLen.toNat, j < 128 → s.mem.read (0x100 + j) = s'.mem.read (0x100 + j))
    (htext : ∀ j < s.inputs.textLen.toNat, j < 192 → s.mem.read (0x200 + j) = s'.mem.read (0x200 + j)) :
    Alike s s' := by
  obtain ⟨hres, hcode⟩ := hc
  obtain ⟨hres', hcode'⟩ := hc'
  refine ⟨hi.symm, hres'.trans hres.symm, fun a ha => ?_⟩
  rcases ha with ha | ha | ha
  · obtain ⟨j, rfl⟩ := Nat.exists_eq_add_of_le ha.1
    rw [hcode j (by omega), hcode' j (by omega)]
  · obtain ⟨j, rfl⟩ := Nat.exists_eq_add_of_le ha.1
    exact (hkey j (by omega) (by omega)).symm
  · obtain ⟨j, rfl⟩ := Nat.exists_eq_add_of_le ha.1
    exact (htext j (by omega) (by omega)).symm

/-- Alike states have the same secret, where KEY_LEN is within KEY_CAP. -/
theorem Alike.secretBytes_eq (h : Alike s s') (hn : s.inputs.keyLen.toNat ≤ 128) :
    secretBytes s' = secretBytes s := by
  unfold secretBytes
  rw [h.inputs]
  refine List.map_congr_left fun j hj => h.bytes _ (.inr (.inl ?_))
  have := List.mem_range.mp hj
  omega

/-- Alike states have the same text, where TEXT_LEN is within TEXT_CAP. -/
theorem Alike.textBytes_eq (h : Alike s s') (hn : s.inputs.textLen.toNat ≤ 192) : textBytes s' = textBytes s := by
  unfold textBytes
  rw [h.inputs]
  refine List.map_congr_left fun j hj => h.bytes _ (.inr (.inr ?_))
  have := List.mem_range.mp hj
  omega

/-! ## Writes -/

theorem Alike.storeBuffer (h : Alike s s') (b : Buffer) (bs : List Byte) :
    Alike (s.storeBuffer b bs) (s'.storeBuffer b bs) :=
  ⟨h.inputs, h.results, fun a ha => by
    rw [storeBuffer_mem, storeBuffer_mem, read_store, read_store, h.bytes a ha]⟩

/-- A decode writes all of KEY, so what KEY held before it, at any KEY_LEN, is gone. -/
theorem Alike.setKey (h : Alike s s') (out : List Byte) :
    Alike (s.setKey Config.chip out) (s'.setKey Config.chip out) := by
  refine ⟨by simp [h.inputs], h.results, fun a ha => ?_⟩
  rw [setKey_read, setKey_read]
  split
  · rfl
  · refine h.bytes a (ha.imp_right fun ha => .inr ?_)
    simp only [setKey_inputs] at ha
    omega

theorem Alike.setLensZero (h : Alike s s') :
    Alike ((s.setKeyLen 0).setTextLen 0) ((s'.setKeyLen 0).setTextLen 0) := by
  refine ⟨by simp [h.inputs], h.results, fun a ha => h.bytes a (ha.imp_right fun ha => ?_)⟩
  simp only [setTextLen_inputs, setKeyLen_inputs, BitVec.ofNat_eq_ofNat, BitVec.toNat_ofNat] at ha
  omega

theorem Alike.requestHmac (h : Alike s s') (r : HmacRequest) : Alike (s.requestHmac r) (s'.requestHmac r) :=
  ⟨h.inputs, h.results, h.bytes⟩

theorem Alike.setTcount (h : Alike s s') (t : Nat) : Alike (s.setTcount Config.chip t) (s'.setTcount Config.chip t) :=
  ⟨h.inputs, by simp [h.results], h.bytes⟩

theorem Alike.setExpiry (h : Alike s s') (t : Nat) : Alike (s.setExpiry Config.chip t) (s'.setExpiry Config.chip t) :=
  ⟨h.inputs, by simp [h.results], h.bytes⟩

theorem Alike.writeCode (h : Alike s s') (d v : Nat) : Alike (s.writeCode d v) (s'.writeCode d v) :=
  ⟨h.inputs, by simp [h.results], (h.storeBuffer .code (renderDigits d v)).bytes⟩

/-! ## Runs -/

theorem Alike.ok (h : Alike s s') : RunsAlike (Run.ok s) (Run.ok s') := ⟨h, rfl⟩

theorem Alike.fail (h : Alike s s') (k : Cause) : RunsAlike (Run.fail k s) (Run.fail k s') := ⟨h, rfl⟩

/-- A check on a condition that the two runs share. -/
theorem RunsAlike.ite {p : Prop} [Decidable p] {r r' q q' : Run} (hr : p → RunsAlike r r')
    (hq : ¬p → RunsAlike q q') : RunsAlike (if p then r else q) (if p then r' else q') := by
  by_cases h : p
  · rw [if_pos h, if_pos h]; exact hr h
  · rw [if_neg h, if_neg h]; exact hq h

theorem RunsAlike.andThen {r r' : Run} {f f' : State → Run} (hr : RunsAlike r r')
    (hf : ∀ u u', Alike u u' → RunsAlike (f u) (f' u')) : RunsAlike (r.andThen f) (r'.andThen f') := by
  have ho := hr.outcome
  unfold Run.andThen
  rw [ho]
  cases r.outcome with
  | none => exact hf _ _ hr.state
  | some k => exact ⟨hr.state, ho⟩

theorem withAlg_alike (h : Alike s s') {k k' : Alg → Run} (hk : ∀ alg, RunsAlike (k alg) (k' alg)) :
    RunsAlike (withAlg s k) (withAlg s' k') := by
  unfold withAlg
  rw [h.inputs]
  cases algOf s.inputs.policy.alg with
  | none => exact h.fail _
  | some alg => exact hk alg

theorem withTriple_alike (h : Alike s s') {k k' : Nat → Nat → Nat → Run}
    (hk : ∀ T E S, RunsAlike (k T E S) (k' T E S)) :
    RunsAlike (withTriple Config.chip s k) (withTriple Config.chip s' k') := by
  unfold withTriple
  rw [h.inputs]
  exact .ite (fun _ => h.fail _) fun _ => .ite (fun _ => h.fail _) fun _ => hk _ _ _

/-! ## Procedures -/

/-- The length check of TEXT comes first, so only TEXT[0..TEXT_LEN) within TEXT_CAP is decoded. -/
theorem decodeText_alike (h : Alike s s') : RunsAlike (decodeText Config.chip s) (decodeText Config.chip s') := by
  unfold decodeText
  rw [h.inputs]
  refine .ite (fun _ => h.fail _) fun hlen => ?_
  have ht : s'.text = s.text := h.textBytes_eq (by rw [chip_textCap] at hlen; omega)
  unfold decodeStep
  rw [ht]
  cases b32decode s.text with
  | ok out => exact (h.setKey out).ok
  | error k => exact (h.setKey []).fail k

theorem hashStages_alike (h : Alike s s') (alg : Alg) (hash : List Byte) :
    RunsAlike (hashStages Config.chip alg hash s) (hashStages Config.chip alg hash s') := by
  unfold hashStages
  refine .ite (fun _ => h.fail _) fun _ => ?_
  rw [h.inputs]
  cases truncate hash with
  | none => exact h.fail _
  | some v => exact (h.writeCode _ _).ok

/-- The length check of KEY comes first, so the request carries KEY[0..KEY_LEN) within KEY_CAP. -/
theorem hotpCore_alike (h : Alike s s') (alg : Alg) (c : Nat) :
    RunsAlike (hotpCore Config.chip alg c s) (hotpCore Config.chip alg c s') := by
  rw [hotpCore_eq, hotpCore_eq, h.inputs]
  refine .ite (fun _ => h.fail _) fun hlen => .ite (fun _ => h.fail _) fun _ => .ite (fun _ => h.fail _) fun _ =>
    .ite (fun _ => h.fail _) fun _ => ?_
  have hs : secretBytes s' = secretBytes s := h.secretBytes_eq (by omega)
  rw [coreRequest, coreRequest, hs]
  exact hashStages_alike (h.requestHmac _) alg _

theorem hotpCore_counter_alike (h : Alike s s') (alg : Alg) :
    RunsAlike (hotpCore Config.chip alg (s.inputs.counter.val Config.chip) s)
      (hotpCore Config.chip alg (s'.inputs.counter.val Config.chip) s') := by
  rw [h.inputs]
  exact hotpCore_alike h alg _

theorem totpCore_alike (h : Alike s s') (alg : Alg) :
    RunsAlike (totpCore Config.chip alg s) (totpCore Config.chip alg s') :=
  withTriple_alike h fun _ _ _ => (hotpCore_alike h alg _).andThen fun _ _ hu => (hu.setTcount _).ok

theorem expireProc_alike (h : Alike s s') : RunsAlike (expireProc Config.chip s) (expireProc Config.chip s') :=
  withTriple_alike h fun _ _ _ => .ite (fun _ => h.fail _) fun _ => (h.setExpiry _).ok

theorem zeroizeProc_alike (h : Alike s s') : RunsAlike (zeroizeProc Config.chip s) (zeroizeProc Config.chip s') :=
  ((h.storeBuffer .key _).storeBuffer .text _).setLensZero.ok

/-- The procedure of every command takes alike states to alike runs. -/
theorem procOf_alike (h : Alike s s') (i : Instr) : RunsAlike (procOf i s) (procOf i s') := by
  cases i with
  | nop => exact h.ok
  | b32dec => exact decodeText_alike h
  | hotp => exact withAlg_alike h fun alg => hotpCore_counter_alike h alg
  | hotpB32 =>
    exact withAlg_alike h fun alg => (decodeText_alike h).andThen fun _ _ hu => hotpCore_counter_alike hu alg
  | totp => exact withAlg_alike h fun alg => totpCore_alike h alg
  | totpB32 => exact withAlg_alike h fun alg => (decodeText_alike h).andThen fun _ _ hu => totpCore_alike hu alg
  | expire => exact expireProc_alike h
  | zeroize => exact zeroizeProc_alike h
  | illegal w => exact h.fail _

end

/-- Settles O32: the states after issue are alike, every procedure keeps that, and completion adds the outcome alone. -/
theorem outcomeDependsOnInputsAlone : Obligations.OutcomeDependsOnInputsAlone := by
  unfold Obligations.OutcomeDependsOnInputsAlone
  intro i s s' t t' hi hc hc' hkey htext ht ht'
  obtain ⟨⟨hin, hres, hbytes⟩, hout⟩ := procOf_alike (alike_of_inputs hi hc hc' hkey htext) i
  rw [exec_next i s t ht, exec_next i s' t' ht']
  refine ⟨hres.symm, hin.symm, by simp [hout], by simp [hout], fun j hj => ?_, fun j hj hj' => ?_⟩
  · exact (hbytes _ (.inl (by omega))).symm
  · exact (hbytes _ (.inr (.inl ⟨by omega, by omega, Nat.add_lt_add_left hj _⟩))).symm

end Sys2Proof.Proofs
end

section
/-! PROOF. STATUS, the memory and the results along a step (rules R35, R41, R43, R48, R112, R211). The clauses of `Inv`
on the memory and the results are `DataOk`, which every write of the machine keeps; each step is then one of the cases of
`step_cases`, a completion one of the cases of `Effect`, a transaction one of the cases of `WriteEffect`. -/

namespace Sys2Proof.Proofs

open Sys2Proof.Machine Sys2Proof.Safety Sys2Proof.Laws

/-! ## STATUS (rule R48) -/

/-- A completion writes every field of STATUS that the invariants speak of, so they hold whatever STATUS was. -/
theorem statusOk_completed (st : Status) (o : Option Cause) : StatusOk (st.completed o) := by
  refine ⟨nofun, fun h => ?_, fun h => ⟨rfl, ?_⟩, fun _ => rfl⟩
  · cases o with
    | none => rfl
    | some k => cases h
  · cases o with
    | none => cases h
    | some k => exact cause_code_range k

theorem statusOk_issued (st : Status) : StatusOk st.issued :=
  ⟨fun _ => ⟨rfl, rfl, rfl⟩, fun _ => rfl, nofun, nofun⟩

/-- A W1C write can only clear DONE. -/
theorem statusOk_w1c {st : Status} (v : Word) (h : StatusOk st) : StatusOk (st.w1c v) := by
  obtain ⟨hbusy, hcause, hfail, hdone⟩ := h
  refine ⟨fun hb => ?_, hcause, hfail, fun hd => hdone (Bool.and_eq_true_iff.mp hd).1⟩
  obtain ⟨hd, hf, hc⟩ := hbusy hb
  exact ⟨by rw [w1c_done, hd, Bool.false_and], hf, hc⟩

theorem writeEffect_statusOk {s t : State} (hw : WriteEffect s t) (h : StatusOk s.status) : StatusOk t.status := by
  cases hw with
  | nothing => exact h
  | w1c v => exact statusOk_w1c v h
  | control v => exact h
  | ignored _ => exact h
  | issued w _ => exact statusOk_issued _
  | stored r v _ _ => exact h
  | word b k v _ _ _ => exact h

theorem statusOk_reset : StatusOk State.reset.status := by decide

theorem step_statusOk {s t : State} (h : StatusOk s.status) (ht : step s = .next t) : StatusOk t.status := by
  rcases step_cases s t ht with ⟨s', -, -, he⟩ | ⟨_, ⟨ts, rfl⟩, rfl⟩ | ⟨s', -, rfl⟩ | ⟨_, ⟨ts, rfl⟩, rfl⟩
  · rw [exec_next _ s' t he]
    exact statusOk_completed _ _
  · obtain ⟨u, hu, -, -, e⟩ := hostMove_effect (s.withTurns ts)
    rw [e]
    exact writeEffect_statusOk (t := u) hu h
  · exact statusOk_reset
  · exact h

/-! ## The memory's form (log entry 7) -/

/-- The model's form of the buffers: a canonical list that names only buffer bytes. -/
structure MemOk (m : Memory) : Prop where
  wf : m.wf
  mapped : ∀ c ∈ m, BufferOffset c.1

theorem memOk_store {m : Memory} (h : MemOk m) (base : Nat) (bs : List Byte)
    (hin : ∀ a, base ≤ a → a < base + bs.length → BufferOffset a) : MemOk (m.store base bs) :=
  ⟨wf_store _ _ _ h.wf, fun c hc => (mem_store _ _ _ c hc).elim (h.mapped c) fun ⟨hlo, hhi⟩ => hin c.1 hlo hhi⟩

/-- A store of zeros lists nothing new, so it may reach past the buffer bytes: the clear of CODE does. -/
theorem memOk_clearBuffer {s : State} (h : MemOk s.mem) (b : Buffer) : MemOk (s.clearBuffer Config.chip b).mem :=
  ⟨wf_store _ _ _ h.wf, fun c hc => h.mapped c (mem_store_zeros _ _ _ c hc)⟩

theorem memOk_writeWord {s : State} (h : MemOk s.mem) (b : Buffer) (k : Nat) (v : Word) (hb : b ≠ .code)
    (hk : 4 * k + 3 < bufferSize Config.chip b) : MemOk (s.writeWord Config.chip b k v).mem := by
  refine memOk_store h _ _ fun a hlo hhi => ?_
  rw [length_wordBytes, chip_lanes] at hhi
  rw [chip_lanes] at hlo
  cases b with
  | code => exact absurd rfl hb
  | key => simp only [bufferSize_key, chip_keyCap, bufferBase_key] at hk hlo hhi; unfold BufferOffset; omega
  | text => simp only [bufferSize_text, chip_textCap, bufferBase_text] at hk hlo hhi; unfold BufferOffset; omega

/-! ## CODE's bytes -/

theorem bufferBase_past_code {b : Buffer} (hb : b ≠ .code) : 0x100 ≤ bufferBase b := by
  cases b with
  | code => exact absurd rfl hb
  | key => decide
  | text => decide

theorem code_writeWord (s : State) (b : Buffer) (k : Nat) (v : Word) (hb : b ≠ .code) (i : Nat) (hi : i < 16) :
    (s.writeWord Config.chip b k v).mem.read (0x080 + i) = s.mem.read (0x080 + i) := by
  have := bufferBase_past_code hb
  rw [writeWord_read, if_neg (by omega)]

theorem code_clearBuffer (s : State) (b : Buffer) (hb : b ≠ .code) (i : Nat) (hi : i < 16) :
    (s.clearBuffer Config.chip b).mem.read (0x080 + i) = s.mem.read (0x080 + i) := by
  have := bufferBase_past_code hb
  rw [clearBuffer_mem, read_store_outside _ _ _ _ (by omega)]

theorem codeShows_congr {m m' : Memory} {d val : Nat} (hd : d ≤ 16)
    (h : ∀ i < 16, m'.read (0x080 + i) = m.read (0x080 + i)) (hs : CodeShows m d val) : CodeShows m' d val := by
  obtain ⟨hdig, hval, hrest⟩ := hs
  refine ⟨fun i hi => ?_, ?_, fun i hi hdi => ?_⟩
  · rw [h i (by omega)]; exact hdig i hi
  · rw [bytes_congr m' m _ _ fun i hi => h i (by omega)]; exact hval
  · rw [h i hi]; exact hrest i hi hdi

theorem decimalValue_append (cs : List Byte) (c : Byte) :
    decimalValue (cs ++ [c]) = 10 * decimalValue cs + (c.toNat - 0x30) := by
  simp [decimalValue]

theorem decimalDigit_toNat (n : Nat) : (BitVec.ofNat 8 (0x30 + n % 10)).toNat = 0x30 + n % 10 := by
  rw [BitVec.toNat_ofNat]; omega

/-- The last character is the lowest digit, those before it the characters of the other digits. -/
theorem renderDigits_succ (d val : Nat) :
    renderDigits (d + 1) val = renderDigits d (val / 10) ++ [BitVec.ofNat 8 (0x30 + val % 10)] := by
  unfold renderDigits
  rw [List.range_succ, List.map_append, List.map_singleton]
  congr 1
  · refine List.map_congr_left fun i hi => ?_
    have hlt := List.mem_range.mp hi
    rw [show d + 1 - 1 - i = (d - 1 - i) + 1 by omega, pow_succ', Nat.div_div_eq_div_mul]
  · simp

theorem decimalValue_renderDigits (d val : Nat) : decimalValue (renderDigits d val) = val % 10 ^ d := by
  induction d generalizing val with
  | zero => simp [renderDigits, decimalValue, Nat.mod_one]
  | succ d ih =>
    rw [renderDigits_succ, decimalValue_append, ih, decimalDigit_toNat, pow_succ', Nat.mod_mul]
    omega

/-- The bytes of a range just stored are what was stored. -/
theorem bytes_store (m : Memory) (base : Nat) (bs : List Byte) : (m.store base bs).bytes base bs.length = bs := by
  apply List.ext_getElem (length_bytes _ _ _)
  intro i h1 h2
  simp only [Memory.bytes, List.getElem_map, List.getElem_range]
  rw [read_store_inside _ _ _ _ h2, List.getD_eq_getElem _ _ h2]

/-- A code stored over a cleared CODE is what CODE shows (rule R164). -/
theorem codeShows_store {m : Memory} (hclear : ∀ i < 16, m.read (0x080 + i) = 0) (d val : Nat) (hv : val < 10 ^ d) :
    CodeShows (m.store 0x080 (renderDigits d val)) d val := by
  refine ⟨fun i hi => ?_, ?_, fun i hi hdi => ?_⟩
  · rw [read_store_inside _ _ _ _ (by simpa using hi), getD_renderDigits _ _ _ hi, decimalDigit_toNat]
    omega
  · have hb := bytes_store m 0x080 (renderDigits d val)
    rw [length_renderDigits] at hb
    rw [hb, decimalValue_renderDigits, Nat.mod_eq_of_lt hv]
  · rw [read_store_outside _ _ _ _ (by rw [length_renderDigits]; omega)]
    exact hclear i hi

/-! ## The memory and the results -/

/-- The clauses of `Inv` on the memory and the results. -/
structure DataOk (s : State) : Prop where
  memory : MemOk s.mem
  codeLen : s.results.codeLen.toNat ≤ 10
  codeVal : s.results.codeVal.toNat < 2 ^ 31
  code : CodeShows s.mem s.results.codeLen.toNat s.results.codeVal.toNat

theorem inv_dataOk {s : State} (h : Inv s) : DataOk s :=
  ⟨⟨h.memory, h.mapped⟩, h.codeLen, h.codeVal, h.code⟩

theorem DataOk.inv {s : State} (h : DataOk s) (hst : StatusOk s.status)
    (hcl : s.status.busy = true ∨ s.status.fail = true → ResultsClear s)
    (hidle : s.status.busy = false → s.pending = 0) : Inv s :=
  ⟨hst, h.memory.wf, h.memory.mapped, hcl, h.codeLen, h.codeVal, h.code, hidle⟩

/-- Cleared results show the code of no characters. -/
theorem dataOk_of_clear {s : State} (hm : MemOk s.mem) (h : ResultsClear s) : DataOk s := by
  obtain ⟨hres, hcode⟩ := h
  refine ⟨hm, by simp [hres], by simp [hres], ?_⟩
  rw [hres]
  exact ⟨nofun, rfl, fun i hi _ => hcode i hi⟩

/-- A write that keeps CODE_LEN, CODE_VAL and CODE. -/
theorem DataOk.of_code_kept {s t : State} (h : DataOk s) (hm : MemOk t.mem)
    (hlen : t.results.codeLen = s.results.codeLen) (hval : t.results.codeVal = s.results.codeVal)
    (hcode : ∀ i < 16, t.mem.read (0x080 + i) = s.mem.read (0x080 + i)) : DataOk t := by
  refine ⟨hm, hlen ▸ h.codeLen, hval ▸ h.codeVal, ?_⟩
  rw [hlen, hval]
  exact codeShows_congr (le_trans h.codeLen (by decide)) hcode h.code

theorem resultsClear_of_kept {s t : State} (h : ResultsClear s) (hres : t.results = s.results)
    (hcode : ∀ i < 16, t.mem.read (0x080 + i) = s.mem.read (0x080 + i)) : ResultsClear t :=
  ⟨hres.trans h.1, fun i hi => (hcode i hi).trans (h.2 i hi)⟩

theorem resultsClear_issue (s : State) (w : Word) : ResultsClear (s.issue Config.chip w) := by
  refine ⟨rfl, fun i hi => ?_⟩
  rw [issue_mem, read_store_zeros, bufferBase_code, chip_codeBuf, if_pos ⟨by omega, by omega⟩]

/-- write_code(d, val) on cleared results (rules R35, R41, R164). -/
theorem dataOk_writeCode {s : State} (hm : MemOk s.mem) (hc : ResultsClear s) (d val : Nat) (hd : d ≤ 10)
    (hval : val < 2 ^ 31) (hvd : val < 10 ^ d) : DataOk (s.writeCode d val) := by
  have hlen : (BitVec.ofNat 8 d).toNat = d := by rw [BitVec.toNat_ofNat]; omega
  have hnum : (BitVec.ofNat 32 val).toNat = val := by rw [BitVec.toNat_ofNat]; omega
  refine ⟨memOk_store hm _ _ fun a hlo hhi => ?_, ?_, ?_, ?_⟩
  · rw [length_renderDigits, bufferBase_code] at hhi
    rw [bufferBase_code] at hlo
    unfold BufferOffset
    omega
  · rw [writeCode_results, hlen]; exact hd
  · rw [writeCode_results, hnum]; exact hval
  · rw [writeCode_results, hlen, hnum]; exact codeShows_store hc.2 d val hvd

/-! ## A completion (rules R112, R114, R211) -/

/-- The decode step leaves CODE and the results alone. -/
theorem afterDecode_keeps (i : Instr) {s : State} (hm : MemOk s.mem) (hc : ResultsClear s) :
    MemOk (afterDecode i s).mem ∧ ResultsClear (afterDecode i s) := by
  obtain ⟨-, -, hres, -, -, -⟩ := afterDecode_frame i s
  refine ⟨⟨afterDecode_wf i s hm.wf, afterDecode_mapped i s hm.mapped⟩, resultsClear_of_kept hc hres fun j hj => ?_⟩
  rw [afterDecode_read, if_neg (by omega)]

/-- The request's checks have bounded DIGITS by CODE_CAP (rule R155). -/
theorem asked_digits {i : Instr} {s : State} {r : HmacRequest} (h : Asked i (afterDecode i s) r) :
    s.inputs.policy.digits.toNat ≤ 10 := by
  obtain ⟨-, -, -, -, -, hin⟩ := afterDecode_frame i s
  obtain ⟨-, -, -, -, hcap⟩ := h.checks
  rwa [hin] at hcap

/-- A code of HOTP or TOTP, written in the state after the decode. -/
theorem dataOk_code {i : Instr} {s : State} {r : HmacRequest} {v : Nat} (hm : MemOk s.mem) (hc : ResultsClear s)
    (ha : Asked i (afterDecode i s) r) (hv : v < 2 ^ 31) :
    DataOk (((afterDecode i s).requestHmac r).writeCode s.inputs.policy.digits.toNat
      (v % 10 ^ s.inputs.policy.digits.toNat)) := by
  obtain ⟨hm', hc'⟩ := afterDecode_keeps i hm hc
  exact dataOk_writeCode (s := (afterDecode i s).requestHmac r) hm' hc' _ _ (asked_digits ha)
    (lt_of_le_of_lt (Nat.mod_le _ _) hv) (Nat.mod_lt _ (by positivity))

/-- From cleared results a procedure leaves good data, and a failing one the results cleared. -/
theorem effect_data {i : Instr} {s : State} {r : Run} (he : Effect i s r) (hm : MemOk s.mem) (hc : ResultsClear s) :
    DataOk r.state ∧ (r.outcome.isSome = true → ResultsClear r.state) := by
  obtain ⟨hm', hc'⟩ := afterDecode_keeps i hm hc
  have hd := dataOk_of_clear hm hc
  have hd' := dataOk_of_clear hm' hc'
  cases he with
  | stop k _ _ => exact ⟨hd', fun _ => hc'⟩
  | wrongHash r _ => exact ⟨hd'.of_code_kept hm' rfl rfl fun _ _ => rfl, fun _ => hc'⟩
  | code r v ha _ hv => exact ⟨dataOk_code hm hc ha hv, nofun⟩
  | timedCode r v tc ha _ hv =>
    have hw := dataOk_code hm hc ha hv
    exact ⟨hw.of_code_kept hw.memory rfl rfl fun _ _ => rfl, nofun⟩
  | done _ => exact ⟨hd', nofun⟩
  | expired v _ => exact ⟨hd.of_code_kept hm rfl rfl fun _ _ => rfl, nofun⟩
  | zeroized _ =>
    refine ⟨hd.of_code_kept (memOk_clearBuffer (memOk_clearBuffer hm .key) .text) rfl rfl fun j hj => ?_, nofun⟩
    exact (code_clearBuffer _ .text (by decide) j hj).trans (code_clearBuffer _ .key (by decide) j hj)

theorem exec_inv {i : Instr} {s t : State} (h : Inv s) (hb : s.status.busy = true) (ht : exec i s = .next t) :
    Inv t := by
  obtain ⟨r, he, rfl⟩ := exec_effect i s t ht
  obtain ⟨hd, hclear⟩ := effect_data he (inv_dataOk h).memory (h.cleared (.inl hb))
  have hdone : DataOk (complete r) := { hd with }
  exact hdone.inv (statusOk_completed _ _) (fun hbf => hclear (hbf.resolve_left nofun)) fun _ => rfl

/-! ## A transaction -/

theorem writeEffect_inv {s t : State} (hw : WriteEffect s t) (h : Inv s) : Inv t := by
  have hst := writeEffect_statusOk hw h.status
  cases hw with
  | nothing => exact h
  | w1c v => exact { h with status := hst }
  | control v => exact { h with status := hst }
  | ignored _ => exact { h with status := hst }
  | stored r v _ _ => exact { h with status := hst }
  | issued w _ =>
    have hc := resultsClear_issue s w
    have hm : MemOk (s.issue Config.chip w).mem := memOk_clearBuffer (inv_dataOk h).memory .code
    exact (dataOk_of_clear hm hc).inv hst (fun _ => hc) nofun
  | word b k v _ hb hk =>
    have hcode := code_writeWord s b k v hb
    exact ((inv_dataOk h).of_code_kept (memOk_writeWord (inv_dataOk h).memory b k v hb hk) rfl rfl hcode).inv hst
      (fun hbf => resultsClear_of_kept (h.cleared hbf) rfl hcode) h.idle

/-! ## The invariant -/

/-- The invariant speaks of the engine alone. -/
theorem inv_withEnv {s : State} (h : Inv s) (e : Env) : Inv { s with env := e } :=
  { h with }

/-- Settles O59: the results are clear and nothing is listed. -/
theorem invariantAtReset : Obligations.InvariantAtReset := by
  unfold Obligations.InvariantAtReset
  have hc : ResultsClear State.reset := ⟨rfl, fun _ _ => rfl⟩
  have hm : MemOk State.reset.mem := ⟨wf_nil, fun c hc => absurd hc List.not_mem_nil⟩
  exact (dataOk_of_clear hm hc).inv statusOk_reset (fun _ => hc) fun _ => rfl

/-- Settles O60, by the kind of the step. -/
theorem stepKeepsInvariant : Obligations.StepKeepsInvariant := by
  unfold Obligations.StepKeepsInvariant
  intro s t h ht
  rcases step_cases s t ht with ⟨_, ⟨ts, rfl⟩, hb, he⟩ | ⟨_, ⟨ts, rfl⟩, rfl⟩ | ⟨s', -, rfl⟩ | ⟨_, ⟨ts, rfl⟩, rfl⟩
  · exact exec_inv (s := s.withTurns ts) (inv_withEnv h _) hb he
  · obtain ⟨u, hu, -, -, e⟩ := hostMove_effect (s.withTurns ts)
    rw [e]
    exact inv_withEnv (writeEffect_inv hu (inv_withEnv h _)) _
  · exact inv_withEnv invariantAtReset s'.env
  · exact inv_withEnv h _

/-- Settles O58: by the kind of the step, and by induction on the run. -/
theorem statusInvariantsHold : Obligations.StatusInvariantsHold := by
  unfold Obligations.StatusInvariantsHold
  refine ⟨statusOk_reset, fun s t => step_statusOk, fun s hr => ?_⟩
  induction hr with
  | start e => exact statusOk_reset
  | step _ ht ih => exact step_statusOk ih ht

end Sys2Proof.Proofs
end

section
/-! PROOF. The registers as the host reads and writes them (10_state.md §2, rules R22 to R34, R42, R47, R64), and the
interrupt (rule R46). A register's word is reduced to the number its fields stand for, and equal words to equal
numbers. -/

namespace Sys2Proof.Proofs

open Sys2Proof.Machine Sys2Proof.Safety Sys2Proof.Laws

/-! ## Words as numbers -/

/-- Bits side by side, as a sum. -/
theorem append_toNat {m n : Nat} (x : BitVec m) (y : BitVec n) : (x ++ y).toNat = x.toNat * 2 ^ n + y.toNat := by
  rw [BitVec.toNat_append, ← Nat.shiftLeft_add_eq_or_of_lt y.isLt, Nat.shiftLeft_eq]

theorem and_lowMask_toNat (v : Word) (n : Nat) (hn : n ≤ 32) :
    (v &&& BitVec.ofNat 32 (2 ^ n - 1)).toNat = v.toNat % 2 ^ n := by
  have hlt : 2 ^ n - 1 < 2 ^ 32 := by
    have := Nat.pow_le_pow_right (show 0 < 2 by decide) hn
    omega
  rw [BitVec.toNat_and, BitVec.toNat_ofNat, Nat.mod_eq_of_lt hlt, Nat.and_two_pow_sub_one_eq_mod]

theorem policyWord_toNat (p : Policy) :
    p.word.toNat = p.digits.toNat + 2 ^ 8 * p.dmin.toNat + 2 ^ 16 * p.dmax.toNat + 2 ^ 24 * p.alg.toNat := by
  simp only [Policy.word, append_toNat, BitVec.ofNat_eq_ofNat, BitVec.toNat_ofNat]
  omega

theorem ctrlWord_toNat (b : Bool) : ((0 : BitVec 31) ++ BitVec.ofBool b).toNat = b.toNat := by
  cases b <;> decide

theorem zeroExtend_byte_toNat (x : Byte) : (x.zeroExtend 32).toNat = x.toNat := by
  have := x.isLt
  rw [BitVec.zeroExtend_eq_setWidth, BitVec.toNat_setWidth]
  omega

/-! ## Reserved bits (rule R42) -/

theorem policyWord_ofWord (v : Word) : (Policy.ofWord v).word = v &&& 0x03FFFFFF := by
  have hm := and_lowMask_toNat v 26 (by decide)
  apply BitVec.eq_of_toNat_eq
  rw [policyWord_toNat]
  simp only [Policy.ofWord, BitVec.extractLsb'_toNat, Nat.shiftRight_eq_div_pow]
  refine Eq.trans ?_ hm.symm
  omega

theorem zeroExtend_lowByte (v : Word) : (v.extractLsb' 0 8).zeroExtend 32 = v &&& 0x000000FF := by
  have hm := and_lowMask_toNat v 8 (by decide)
  apply BitVec.eq_of_toNat_eq
  rw [zeroExtend_byte_toNat, BitVec.extractLsb'_toNat]
  exact hm.symm

theorem ctrlWord_bit (v : Word) : (0 : BitVec 31) ++ BitVec.ofBool v[0] = v &&& 1 := by
  refine Eq.trans ?_ (BitVec.and_one_eq_setWidth_ofBool_getLsbD (x := v)).symm
  rw [BitVec.getLsbD_eq_getElem (by decide)]
  cases v[0] <;> rfl

/-! ## Reads -/

theorem readAt_regOffset_toNat (r : Reg) (s : State) :
    (readAt (regOffset r) s).1.toNat = (s.readReg Config.chip r).toNat := by
  rw [readAt_regOffset]

/-- Settles O13: each register is read at its offset, and a word of fields is the sum of its fields. -/
theorem registerReads : Obligations.RegisterReads := by
  unfold Obligations.RegisterReads
  intro s
  have hdata := fun r => readAt_regOffset r s
  have hfields := fun r => readAt_regOffset_toNat r s
  exact ⟨hdata .id, hdata .params,
    (hfields .ctrl).trans (ctrlWord_toNat _), hdata .cmd,
    (hfields .status).trans (statusWord_toNat _),
    (hfields .policy).trans (policyWord_toNat _),
    (hfields .keyLen).trans (zeroExtend_byte_toNat _), (hfields .textLen).trans (zeroExtend_byte_toNat _),
    hdata .counterLo, hdata .counterHi, hdata .timeLo, hdata .timeHi, hdata .epochLo, hdata .epochHi,
    hdata .stepLo, hdata .stepHi,
    (hfields .codeLen).trans (zeroExtend_byte_toNat _), hdata .codeVal,
    hdata .tcountLo, hdata .tcountHi, hdata .expiryLo, hdata .expiryHi⟩

/-- Settles O11: the registers are read at their offsets, and no byte of the buffers is listed. -/
theorem resetValues : Obligations.ResetValues := by
  unfold Obligations.ResetValues
  have hmem : ∀ a, State.reset.mem.read a = 0 := read_nil
  exact ⟨readAt_regOffset .id _, readAt_regOffset .params _, rfl, rfl, readAt_regOffset .policy _, rfl, rfl,
    rfl, rfl, rfl, rfl, ⟨rfl, fun _ _ => hmem _⟩, fun _ _ => hmem _, fun _ _ => hmem _, rfl, rfl⟩

/-! ## Writes to STATUS and CTRL -/

theorem w1c_eq (v : Word) (st : Status) :
    st.w1c v = { st with
      done := if v[1] = true then false else st.done
      ign := if v[3] = true then false else st.ign } := by
  have hclear : ∀ b c : Bool, (b && !c) = if c = true then false else b := by decide
  ext1
  · rfl
  · exact hclear _ _
  · rfl
  · exact hclear _ _
  · rfl

/-- Settles O19: STATUS is written through its W1C bits alone, with no check of BUSY. -/
theorem statusWriteClearsDoneAndIgn : Obligations.StatusWriteClearsDoneAndIgn := by
  unfold Obligations.StatusWriteClearsDoneAndIgn
  intro v s
  rw [← w1c_eq]
  exact busWrite_regOffset .status v s

/-- Settles O20: CTRL is written with no check of BUSY, and its word is IE above no other bit. -/
theorem ctrlWriteSetsInterruptEnable : Obligations.CtrlWriteSetsInterruptEnable := by
  unfold Obligations.CtrlWriteSetsInterruptEnable
  intro v s
  have hw : busWrite Config.chip 0x008 v s = ({ s with ie := v[0] }, .okay) := busWrite_regOffset .ctrl v s
  refine ⟨hw, ?_⟩
  rw [afterWrite, hw, ← ctrlWord_bit v]
  exact readAt_regOffset .ctrl _

/-! ## Stored inputs -/

theorem regAccess_of_inputOffset (r : Reg) (h : InputOffset (regOffset r).toNat) : regAccess r = .input := by
  revert h
  cases r <;> decide

/-- An input offset is that of an input register (10_state.md §2). -/
theorem inputOffset_reg {off : Offset} (h : InputOffset off.toNat) : ∃ r, off = regOffset r ∧ regAccess r = .input := by
  rcases target_cases off with ⟨hn, -⟩ | ⟨-, r, rfl, -⟩ | ⟨-, b, k, ho, -, -⟩
  · unfold InputOffset at h; unfold NoTarget at hn; omega
  · exact ⟨r, rfl, regAccess_of_inputOffset r h⟩
  · cases b <;> simp only [bufferBase_code, bufferBase_key, bufferBase_text] at ho <;> omega

/-- A data offset is that of a word of KEY or TEXT (10_state.md §2). -/
theorem dataOffset_word {off : Offset} (h : DataOffset off.toNat) :
    ∃ b k, b ≠ .code ∧ off.toNat = bufferBase b + 4 * k ∧ 4 * k < bufferSize Config.chip b := by
  obtain ⟨hm, h | h⟩ := h
  · refine ⟨.key, (off.toNat - 0x100) / 4, by decide, ?_, ?_⟩
    · rw [bufferBase_key]; omega
    · rw [bufferSize_key, chip_keyCap]; omega
  · refine ⟨.text, (off.toNat - 0x200) / 4, by decide, ?_, ?_⟩
    · rw [bufferBase_text]; omega
    · rw [bufferSize_text, chip_textCap]; omega

/-- A write to an input register while idle stores the word. -/
theorem afterWrite_input (r : Reg) (v : Word) (s : State) (hr : regAccess r = .input) (hb : s.status.busy = false) :
    afterWrite (regOffset r) v s = { s with inputs := s.inputs.store r v } := by
  rw [afterWrite, busWrite_regOffset, writeTarget, hr]
  exact unlessBusy_idle s (fun s => { s with inputs := s.inputs.store r v }) hb

/-- A write to a word of KEY or TEXT while idle stores its bytes. -/
theorem afterWrite_word (b : Buffer) (k : Nat) (off : Offset) (v : Word) (s : State) (hc : b ≠ .code)
    (ho : off.toNat = bufferBase b + 4 * k) (hk : 4 * k < bufferSize Config.chip b) (hb : s.status.busy = false) :
    afterWrite off v s = s.writeWord Config.chip b k v := by
  rw [afterWrite, busWrite_word b k off v s ho hk]
  cases b with
  | code => exact absurd rfl hc
  | key => exact unlessBusy_idle s _ hb
  | text => exact unlessBusy_idle s _ hb

/-- What a stored input register reads as: POLICY and the lengths without their reserved bits, the rest whole. -/
theorem readReg_store (r : Reg) (v : Word) (s : State) (hr : regAccess r = .input) :
    ({ s with inputs := s.inputs.store r v } : State).readReg Config.chip r = v &&& inputMask (regOffset r) := by
  have hwhole : v = v &&& 0xFFFFFFFF := BitVec.and_allOnes.symm
  cases r with
  | policy => exact policyWord_ofWord v
  | keyLen => exact zeroExtend_lowByte v
  | textLen => exact zeroExtend_lowByte v
  | counterLo => exact hwhole
  | counterHi => exact hwhole
  | timeLo => exact hwhole
  | timeHi => exact hwhole
  | epochLo => exact hwhole
  | epochHi => exact hwhole
  | stepLo => exact hwhole
  | stepHi => exact hwhole
  | _ => cases hr

/-- Settles O15: the register or word that the offset names is stored, and reads back. -/
theorem inputWriteReadsBack : Obligations.InputWriteReadsBack := by
  unfold Obligations.InputWriteReadsBack
  intro off v s hb
  refine ⟨fun h => ?_, fun h => ?_⟩
  · obtain ⟨r, rfl, hr⟩ := inputOffset_reg h
    rw [afterWrite_input r v s hr hb, readAt_regOffset, readReg_store r v s hr]
  · obtain ⟨b, k, hc, ho, hk⟩ := dataOffset_word h
    rw [afterWrite_word b k off v s hc ho hk hb, readAt_word b k off _ ho hk, readWord_writeWord]

/-! ## The interrupt (rule R46) -/

/-- No procedure writes IE. -/
theorem effect_ie {i : Instr} {s : State} {r : Run} (h : Effect i s r) : r.state.ie = s.ie := by
  have hie := (afterDecode_frame i s).1
  cases h with
  | stop k _ _ => exact hie
  | wrongHash r _ => exact hie
  | code r v _ _ _ => exact hie
  | timedCode r v tc _ _ _ => exact hie
  | done _ => exact hie
  | expired v _ => rfl
  | zeroized _ => rfl

theorem irq_of_not_done {s : State} (h : s.status.done = false) : s.irq = false := by
  rw [State.irq, h, Bool.false_and]

/-- A completion sets DONE and keeps IE. -/
theorem exec_irq {i : Instr} {s t : State} (h : exec i s = .next t) : t.irq = s.ie := by
  obtain ⟨r, he, rfl⟩ := exec_effect i s t h
  rw [State.irq, complete_status, completed_done, Bool.true_and]
  exact effect_ie he

theorem afterWrite_status (v : Word) (s : State) : afterWrite 0x010 v s = { s with status := s.status.w1c v } :=
  congrArg Prod.fst (busWrite_regOffset .status v s)

theorem afterWrite_ctrl (v : Word) (s : State) : afterWrite 0x008 v s = { s with ie := v[0] } :=
  congrArg Prod.fst (busWrite_regOffset .ctrl v s)

/-- A write to CMD while idle is an issue. -/
theorem afterWrite_cmd (w : Word) (s : State) (hb : s.status.busy = false) :
    afterWrite 0x00C w s = s.issue Config.chip w :=
  (congrArg Prod.fst (busWrite_regOffset .cmd w s)).trans (unlessBusy_idle s _ hb)

/-- Settles O22: a completion sets DONE and keeps IE; every fall clears DONE or IE. -/
theorem irqFollowsDoneAndEnable : Obligations.IrqFollowsDoneAndEnable := by
  unfold Obligations.IrqFollowsDoneAndEnable
  refine ⟨fun s => rfl, fun i s t => exec_irq, fun v s hv => ?_, fun w s hb => ?_, fun v s hv => ?_, fun s => rfl⟩
  · refine irq_of_not_done ?_
    rw [afterWrite_status, w1c_done, hv, Bool.not_true, Bool.and_false]
  · refine irq_of_not_done ?_
    rw [afterWrite_cmd w s hb, issue_status, issued_done]
  · rw [afterWrite_ctrl, hv]
    exact ⟨Bool.and_false _, rfl⟩

end Sys2Proof.Proofs
end

section
/-! PROOF. The window under the host's transactions (20_memory.md): the moves of RD and WR (rules R63, R64, R68, R72),
the bytes of a buffer word (rule R62), the one word that a write touches (rule R64), and the writes that are dropped or
ignored (rules R65, R66). Last, what these leave of a pending command's outcome: all of it (rules R74, R110). -/

namespace Sys2Proof.Proofs

open Sys2Proof.Machine Sys2Proof.Safety Sys2Proof.Laws

/-! ## The moves of RD and WR -/

theorem hostMove_rd (s : State) (off : Offset) (rest : List HostOp) (hp : s.env.program = .rd off :: rest) :
    hostMove Config.chip s = s.reply (.read (readAt off s).1 (readAt off s).2) rest := by
  rw [hostMove, hp]; rfl

theorem hostMove_wr (s : State) (off : Offset) (v : Word) (rest : List HostOp)
    (hp : s.env.program = .wr off v :: rest) :
    hostMove Config.chip s =
      (afterWrite off v s).reply (.write (if NoTarget off.toNat then .busErr else .okay)) rest := by
  rw [hostMove, hp, ← busWrite_resp off v s]; rfl

theorem afterWrite_env (off : Offset) (v : Word) (s : State) : (afterWrite off v s).env = s.env :=
  writeEffect_env (busWrite_effect off v s)

theorem readAt_withTurns (off : Offset) (s : State) (ts : List Turn) : readAt off (s.withTurns ts) = readAt off s :=
  busRead_env off s _

theorem afterWrite_withTurns (off : Offset) (v : Word) (s : State) (ts : List Turn) :
    afterWrite off v (s.withTurns ts) = (afterWrite off v s).withTurns ts := by
  rw [State.withTurns, State.withTurns, afterWrite_env]
  exact congrArg Prod.fst (busWrite_env off v s _)

/-- Settles O6: a read does not see the turns, so it gives the word as it stands. -/
theorem readTransactionChangesNothing : Obligations.ReadTransactionChangesNothing := by
  unfold Obligations.ReadTransactionChangesNothing
  intro s off rest ts ht hp
  rw [step_host s ts ht, hostMove_rd (s.withTurns ts) off rest hp, readAt_withTurns]
  rfl

/-- Settles O7: a write neither sees nor changes the environment, so taking the turn commutes with it. -/
theorem writeTransactionIsOneMove : Obligations.WriteTransactionIsOneMove := by
  unfold Obligations.WriteTransactionIsOneMove
  intro s off v rest ts ht hp
  have henv := afterWrite_env off v s
  refine ⟨_, step_host s ts ht, ?_, ?_⟩
  · rw [hostMove_wr (s.withTurns ts) off v rest hp, afterWrite_withTurns, ← henv]
    rfl
  · rw [hostMove_wr (s.withTurns ts) off v rest hp, afterWrite_withTurns, reply_env, withTurns_env, henv]

/-! ## The bytes of a word (rule R62) -/

/-- A word offset of CODE is that of one of its words (rule R41). -/
theorem codeOffset_word {off : Offset} (hm : off.toNat % 4 = 0) (hlo : 0x080 ≤ off.toNat) (hhi : off.toNat < 0x090) :
    ∃ k, off.toNat = bufferBase .code + 4 * k ∧ 4 * k < bufferSize Config.chip .code := by
  refine ⟨(off.toNat - 0x080) / 4, ?_, ?_⟩
  · rw [bufferBase_code]; omega
  · rw [bufferSize_code, chip_codeBuf]; omega

/-- A buffer word's offset names a word of one of the three buffers. -/
theorem bufferOffset_word {off : Offset}
    (h : DataOffset off.toNat ∨ (off.toNat % 4 = 0 ∧ 0x080 ≤ off.toNat ∧ off.toNat < 0x090)) :
    ∃ b k, off.toNat = bufferBase b + 4 * k ∧ 4 * k < bufferSize Config.chip b := by
  rcases h with h | ⟨hm, hlo, hhi⟩
  · obtain ⟨b, k, -, hbk⟩ := dataOffset_word h
    exact ⟨b, k, hbk⟩
  · exact ⟨.code, codeOffset_word hm hlo hhi⟩

/-- Settles O14: the offset names a word of a buffer, whose bytes lie at the offset and the three after it. -/
theorem bufferWordsPackLittleEndian : Obligations.BufferWordsPackLittleEndian := by
  unfold Obligations.BufferWordsPackLittleEndian
  refine fun off v s => ⟨fun h => ?_, fun h hb => ?_⟩
  · obtain ⟨b, k, ho, hk⟩ := bufferOffset_word h
    rw [readAt_word b k off s ho hk, ho]
    exact readWord_toNat b k s
  · obtain ⟨b, k, hc, ho, hk⟩ := dataOffset_word h
    rw [afterWrite_word b k off v s hc ho hk hb, ho]
    refine ⟨fun j hj => ?_, fun a ha => ?_, rfl⟩
    · rw [writeWord_read, if_pos ⟨by omega, by omega⟩, Nat.add_sub_cancel_left]
    · rw [writeWord_read, if_neg ha]

/-! ## What a read depends on -/

theorem bufferBase_aligned (b : Buffer) : bufferBase b % 4 = 0 := by
  cases b <;> rfl

/-- A read of an offset depends on the register it names, or on the four bytes of the word it names. -/
theorem readAt_congr (off : Offset) (s t : State)
    (hreg : ∀ r, off = regOffset r → t.readReg Config.chip r = s.readReg Config.chip r)
    (hmem : off.toNat % 4 = 0 → ∀ j < 4, t.mem.read (off.toNat + j) = s.mem.read (off.toNat + j)) :
    readAt off t = readAt off s := by
  rcases target_cases off with ⟨-, e⟩ | ⟨-, r, rfl, -⟩ | ⟨-, b, k, ho, hk, -⟩
  · rw [readAt, readAt, busRead, busRead, e]
  · rw [readAt_regOffset, readAt_regOffset, hreg r rfl]
  · have hb := bufferBase_aligned b
    rw [ho] at hmem
    rw [readAt_word b k off t ho (by omega), readAt_word b k off s ho (by omega),
      readWord_congr b k t s (hmem (by omega))]

/-- Only the stored register can read otherwise: every other one is read from a field that the store keeps. -/
theorem readReg_store_other (r r' : Reg) (v : Word) (s : State) (hne : r ≠ r') :
    ({ s with inputs := s.inputs.store r v } : State).readReg Config.chip r' = s.readReg Config.chip r' := by
  cases r <;> cases r' <;> try rfl
  all_goals exact absurd rfl hne

/-- No register is held in the memory. -/
theorem readReg_writeWord (b : Buffer) (k : Nat) (v : Word) (s : State) (r : Reg) :
    (s.writeWord Config.chip b k v).readReg Config.chip r = s.readReg Config.chip r := by
  cases r <;> rfl

/-- Another aligned word shares no byte with a written one. -/
theorem read_writeWord_other (b : Buffer) (k : Nat) (v : Word) (s : State) (o : Nat) (ho : o % 4 = 0)
    (hne : bufferBase b + 4 * k ≠ o) (j : Nat) (hj : j < 4) :
    (s.writeWord Config.chip b k v).mem.read (o + j) = s.mem.read (o + j) := by
  have hb := bufferBase_aligned b
  rw [writeWord_read, if_neg (by omega)]

/-- Settles O16: the write stores one register or one word, and no other offset names it. -/
theorem inputWriteTouchesOneWord : Obligations.InputWriteTouchesOneWord := by
  unfold Obligations.InputWriteTouchesOneWord
  intro off off' v s hb h hne
  rcases h with h | h
  · obtain ⟨r, rfl, hr⟩ := inputOffset_reg h
    rw [afterWrite_input r v s hr hb]
    have hreg : ∀ r', off' = regOffset r' → r ≠ r' := fun r' hr' e => hne (e ▸ hr'.symm)
    exact ⟨readAt_congr off' s _ (fun r' hr' => readReg_store_other r r' v s (hreg r' hr')) fun _ _ _ => rfl, rfl, rfl⟩
  · obtain ⟨b, k, hc, ho, hk⟩ := dataOffset_word h
    rw [afterWrite_word b k off v s hc ho hk hb]
    have hoff : bufferBase b + 4 * k ≠ off'.toNat := fun e => hne (BitVec.eq_of_toNat_eq (ho.trans e))
    exact ⟨readAt_congr off' s _ (fun r' _ => readReg_writeWord b k v s r')
      fun hm => read_writeWord_other b k v s off'.toNat hm hoff, rfl, rfl⟩

/-! ## Writes that are dropped or ignored (rules R65, R66) -/

theorem regAccess_of_readOnlyOffset (r : Reg) (h : ReadOnlyOffset (regOffset r).toNat) : regAccess r = .readOnly := by
  revert h
  cases r <;> decide

/-- A write to a read-only word is ignored, whatever BUSY is. -/
theorem busWrite_readOnly {off : Offset} (h : ReadOnlyOffset off.toNat) (v : Word) (s : State) :
    busWrite Config.chip off v s = (s, .okay) := by
  rcases target_cases off with ⟨hn, -⟩ | ⟨-, r, rfl, -⟩ | ⟨-, b, k, ho, hk, -⟩
  · unfold ReadOnlyOffset at h; unfold NoTarget at hn; omega
  · rw [busWrite_regOffset, writeTarget, regAccess_of_readOnlyOffset r h]
  · rw [busWrite_word b k off v s ho (by omega)]
    cases b with
    | code => rfl
    | key => rw [bufferBase_key] at ho; omega
    | text => rw [bufferBase_text] at ho; omega

/-- A write to CMD or to an input register is dropped while a command is pending. -/
theorem busWrite_reg_busy (r : Reg) (v : Word) (s : State) (hr : regAccess r = .command ∨ regAccess r = .input)
    (hb : s.status.busy = true) :
    busWrite Config.chip (regOffset r) v s = ({ s with status := s.status.ignored }, .okay) := by
  rw [busWrite_regOffset, writeTarget]
  rcases hr with hr | hr <;> rw [hr] <;> exact congrArg (·, Resp.okay) (unlessBusy_busy s _ hb)

/-- A write to a word of KEY or TEXT is dropped while a command is pending. -/
theorem busWrite_word_busy {off : Offset} (h : DataOffset off.toNat) (v : Word) (s : State)
    (hb : s.status.busy = true) : busWrite Config.chip off v s = ({ s with status := s.status.ignored }, .okay) := by
  obtain ⟨b, k, hc, ho, hk⟩ := dataOffset_word h
  rw [busWrite_word b k off v s ho hk]
  cases b with
  | code => exact absurd rfl hc
  | key => exact congrArg (·, Resp.okay) (unlessBusy_busy s _ hb)
  | text => exact congrArg (·, Resp.okay) (unlessBusy_busy s _ hb)

/-- Settles O17: BUSY is checked for CMD, the inputs and KEY and TEXT alone. -/
theorem writesWhileBusyAreDropped : Obligations.WritesWhileBusyAreDropped := by
  unfold Obligations.WritesWhileBusyAreDropped
  intro off v s hb
  refine ⟨?_, ?_, ?_, fun h => busWrite_readOnly h v s⟩
  · rintro (rfl | h | h)
    · exact busWrite_reg_busy .cmd v s (.inl rfl) hb
    · obtain ⟨r, rfl, hr⟩ := inputOffset_reg h
      exact busWrite_reg_busy r v s (.inr hr) hb
    · exact busWrite_word_busy h v s hb
  · rintro rfl
    exact busWrite_regOffset .ctrl v s
  · rintro rfl
    exact busWrite_regOffset .status v s

/-- Settles O18: a read-only word is not written, CMD is issued while idle and holds nothing. -/
theorem readOnlyWritesAreIgnored : Obligations.ReadOnlyWritesAreIgnored := by
  unfold Obligations.ReadOnlyWritesAreIgnored
  refine fun off v s => ⟨fun h => busWrite_readOnly h v s, fun hb => ?_, readAt_regOffset .cmd _⟩
  rw [afterWrite_cmd v s hb]
  exact ⟨rfl, rfl⟩

/-! ## A pending command's outcome (rules R65, R74, R110) -/

/-- However many moves the host makes, a pending command stays pending and its operands, the results and the memory
are as they were. -/
theorem hostMoves_busy (n : Nat) (s : State) (hb : s.status.busy = true) :
    (hostMoves n s).status.busy = true ∧ (hostMoves n s).pending = s.pending ∧ (hostMoves n s).inputs = s.inputs
      ∧ (hostMoves n s).results = s.results ∧ (hostMoves n s).mem = s.mem := by
  induction n generalizing s with
  | zero => exact ⟨hb, rfl, rfl, rfl, rfl⟩
  | succ n ih =>
    obtain ⟨hb₁, hp₁, hi₁, hr₁, hm₁, -, -⟩ := hostMove_busy s hb
    obtain ⟨hb₂, hp₂, hi₂, hr₂, hm₂⟩ := ih _ hb₁
    exact ⟨hb₂, hp₂.trans hp₁, hi₂.trans hi₁, hr₂.trans hr₁, hm₂.trans hm₁⟩

/-- The memory that a command leaves in `s`, from what else is known of its run: whether it ended ok, and CODE_VAL. -/
def memAfter (i : Instr) (s : State) (ok : Bool) (codeVal : Word) : Memory :=
  if i = .zeroize then ((s.clearBuffer Config.chip .key).clearBuffer Config.chip .text).mem
  else if hashes i = true ∧ ok = true then
    (afterDecode i s).mem.store (bufferBase .code) (renderDigits s.inputs.policy.digits.toNat codeVal.toNat)
  else (afterDecode i s).mem

/-- A code in CODE is the rendering of the CODE_VAL written with it (rule R164). -/
theorem memAfter_code {i : Instr} (hz : i ≠ .zeroize) (hh : hashes i = true) (s : State) (val : Nat)
    (hv : val < 2 ^ 31) :
    memAfter i s true (BitVec.ofNat 32 val) =
      (afterDecode i s).mem.store (bufferBase .code) (renderDigits s.inputs.policy.digits.toNat val) := by
  rw [memAfter, if_neg hz, if_pos ⟨hh, rfl⟩, BitVec.toNat_ofNat, Nat.mod_eq_of_lt (by omega)]

/-- Where no code is written the memory is what the decode step left. -/
theorem memAfter_noCode {i : Instr} (hz : i ≠ .zeroize) (s : State) (ok : Bool) (codeVal : Word)
    (h : hashes i = true → ok = false) : memAfter i s ok codeVal = (afterDecode i s).mem := by
  rw [memAfter, if_neg hz, if_neg fun hc => by simp [h hc.1] at hc]

/-- The outcome and the results of a run determine the memory it leaves. -/
theorem effect_mem {i : Instr} {s : State} {r : Run} (he : Effect i s r) (hz : i ≠ .zeroize) :
    r.state.mem = memAfter i s r.outcome.isNone r.state.results.codeVal := by
  have hval : ∀ {v : Nat}, v < 2 ^ 31 → v % 10 ^ s.inputs.policy.digits.toNat < 2 ^ 31 :=
    fun hv => lt_of_le_of_lt (Nat.mod_le _ _) hv
  cases he with
  | stop k _ _ => exact (memAfter_noCode hz s _ _ fun _ => rfl).symm
  | wrongHash r _ => exact (memAfter_noCode hz s _ _ fun _ => rfl).symm
  | code r v ha _ hv => exact (memAfter_code hz ha.hashes s _ (hval hv)).symm
  | timedCode r v tc ha _ hv => exact (memAfter_code hz ha.hashes s _ (hval hv)).symm
  | done hh => exact (memAfter_noCode hz s _ _ fun h => by rw [hh] at h; cases h).symm
  | expired v hi =>
    subst hi
    rw [memAfter_noCode hz s _ _ nofun, afterDecode_not_decodes _ s rfl]
    rfl
  | zeroized hi => exact absurd hi hz

theorem procOf_mem (i : Instr) (s : State) :
    (procOf i s).state.mem = memAfter i s (procOf i s).outcome.isNone (procOf i s).state.results.codeVal := by
  by_cases hz : i = .zeroize
  · subst hz; rfl
  · exact effect_mem (procOf_effect i s) hz

section
variable {s s' : State}

theorem afterDecode_mem_congr (i : Instr) (hi : s'.inputs = s.inputs) (hm : s'.mem = s.mem) :
    (afterDecode i s').mem = (afterDecode i s).mem := by
  have ht : textBytes s' = textBytes s := by rw [textBytes, textBytes, hi, hm]
  have hd : decodedBytes s' = decodedBytes s := by rw [decodedBytes, decodedBytes, ht]
  have hr : decodeRuns i s' = decodeRuns i s := by rw [decodeRuns, decodeRuns, hi]
  rw [afterDecode, afterDecode, hr, hd]
  split
  · rw [setKey_mem, setKey_mem, hm]
  · exact hm

theorem memAfter_congr (i : Instr) (hi : s'.inputs = s.inputs) (hm : s'.mem = s.mem) (ok : Bool) (codeVal : Word) :
    memAfter i s' ok codeVal = memAfter i s ok codeVal := by
  simp only [memAfter, clearBuffer_mem, afterDecode_mem_congr i hi hm, hi, hm]

theorem alike_of_mem (hi : s'.inputs = s.inputs) (hr : s'.results = s.results) (hm : s'.mem = s.mem) : Alike s s' :=
  ⟨hi, hr, fun a _ => by rw [hm]⟩

/-- Runs from the same inputs, results and memory leave the same memory, at every byte of it. -/
theorem procOf_mem_congr (i : Instr) (hi : s'.inputs = s.inputs) (hr : s'.results = s.results) (hm : s'.mem = s.mem) :
    (procOf i s').state.mem = (procOf i s).state.mem := by
  obtain ⟨⟨-, hres, -⟩, hout⟩ := procOf_alike (alike_of_mem hi hr hm) i
  rw [procOf_mem, procOf_mem, hout, hres, memAfter_congr i hi hm]

end

/-- Settles O33: the host's moves keep all that a command reads, and so its run and the memory it leaves. -/
theorem busyIntervalCannotChangeOutcome : Obligations.BusyIntervalCannotChangeOutcome := by
  unfold Obligations.BusyIntervalCannotChangeOutcome
  intro n i s t hb ht
  obtain ⟨hb', hp, hi, hr, hm⟩ := hostMoves_busy n s hb
  obtain ⟨⟨hin, hres, -⟩, hout⟩ := procOf_alike (alike_of_mem hi hr hm) i
  rw [exec_next i s t ht]
  refine ⟨hb', hp, _, exec_eq i _, hres, hin, procOf_mem_congr i hi hr hm, ?_, ?_⟩
  · rw [complete_status, complete_status, completed_fail, completed_fail, hout]
  · rw [complete_status, complete_status, completed_cause, completed_cause, hout]

end Sys2Proof.Proofs
end

section
/-! PROOF. The decoder and the encoder (rules R91 to R93, R100), and the program's operations that issue a command and
wait for it (rule R99). -/

namespace Sys2Proof.Proofs

open Sys2Proof.Machine Sys2Proof.Safety Sys2Proof.Laws

/-! ## Decoding -/

/-- A set bit of [31:4], or an OP from 8 on, rejects the word (rules R92, R93). -/
theorem isIllegal_iff (w : Word) :
    Word.isIllegal w = true ↔ w.extractLsb' 4 28 ≠ 0 ∨ 8 ≤ (w.extractLsb' 0 4).toNat := by
  simp [Word.isIllegal]

theorem decode_of_isIllegal {w : Word} (h : Word.isIllegal w = true) : decode w = .illegal w := by
  unfold decode
  by_cases hrsv : w.extractLsb' 4 28 = 0
  · have hop : 8 ≤ (w.extractLsb' 0 4).toNat := ((isIllegal_iff w).mp h).resolve_left (not_not.mpr hrsv)
    obtain ⟨n, hn⟩ := Nat.exists_eq_add_of_le' hop
    rw [if_neg (not_not.mpr hrsv), hn]
    rfl
  · exact if_pos hrsv

/-- [31:4] and OP are the quotient and the remainder of the word by 16, so the two rejections are one bound. -/
theorem isIllegal_of_ge {w : Word} (h : 8 ≤ w.toNat) : Word.isIllegal w = true := by
  refine (isIllegal_iff w).mpr (or_iff_not_imp_left.mpr fun hrsv => ?_)
  have hquot : (w.extractLsb' 4 28).toNat = 0 := congrArg BitVec.toNat (not_not.mp hrsv)
  have hw := w.isLt
  rw [BitVec.extractLsb'_toNat, Nat.shiftRight_eq_div_pow] at hquot ⊢
  omega

theorem decode_encode {i : Instr} (h : i.wellFormed = true) : decode (encode i) = i := by
  cases i with
  | illegal w => exact decode_of_isIllegal h
  | _ => rfl

/-- Settles O1: a legal word selects its own row, a word that ILLEGAL may keep is rejected. -/
theorem decodeEncodeRoundTrip : Obligations.DecodeEncodeRoundTrip := by
  unfold Obligations.DecodeEncodeRoundTrip
  exact fun _ => decode_encode

/-- Settles O2: the eight legal words are those of the eight commands, and a word from 8 on is rejected. -/
theorem exactlyEightWordsAreLegal : Obligations.ExactlyEightWordsAreLegal := by
  unfold Obligations.ExactlyEightWordsAreLegal
  exact ⟨decode_encode (i := .nop) rfl, decode_encode (i := .b32dec) rfl, decode_encode (i := .hotp) rfl,
    decode_encode (i := .hotpB32) rfl, decode_encode (i := .totp) rfl, decode_encode (i := .totpB32) rfl,
    decode_encode (i := .expire) rfl, decode_encode (i := .zeroize) rfl,
    fun w hw => ⟨w, decode_of_isIllegal (isIllegal_of_ge hw)⟩⟩

/-- Settles O3: two words are those of commands, three have a bit of [31:4] set or an OP from 8 on. -/
theorem specWordsDecode : Obligations.SpecWordsDecode := by
  unfold Obligations.SpecWordsDecode
  exact ⟨decode_encode (i := .hotp) rfl, decode_encode (i := .totpB32) rfl,
    decode_of_isIllegal (by decide), decode_of_isIllegal (by decide), decode_of_isIllegal (by decide)⟩

/-! ## WAIT and ISSUE (rule R99) -/

/-- The bit that WAIT tests is BUSY. -/
theorem hostMove_wait (s : State) (rest : List HostOp) (hp : s.env.program = .wait :: rest) :
    hostMove Config.chip s =
      s.reply (.read (readAt 0x010 s).1 .okay) (if s.status.busy = true then .wait :: rest else rest) := by
  have hr : busRead Config.chip (regOffset .status) s = (s.status.word, .okay) := readAt_regOffset .status s
  have hr' : readAt 0x010 s = (s.status.word, .okay) := hr
  rw [hostMove, hp]
  simp only [poll, hr, hr', statusWord_busy]

/-- Settles O8: a poll is one reply to the host, which neither sees nor changes the turns. -/
theorem waitPollsUntilNotBusy : Obligations.WaitPollsUntilNotBusy := by
  unfold Obligations.WaitPollsUntilNotBusy
  intro s rest ts ht hp
  refine ⟨_, step_host s ts ht, ?_⟩
  rw [hostMove_wait (s.withTurns ts) rest hp, readAt_withTurns]
  exact ⟨rfl, rfl, rfl⟩

/-- The engine's turn completes the pending command (rules R113, R114). -/
theorem step_engine (s : State) (ts : List Turn) (ht : s.env.turns = .engine :: ts) (hb : s.status.busy = true) :
    step s = exec (decode s.pending) (s.withTurns ts) := by
  rw [step, takeTurn, ht]
  simp only [moveOf, hb]
  rfl

/-- An ISSUE while idle latches the instruction's word. -/
theorem hostMove_issue (i : Instr) (s : State) (rest : List HostOp) (hb : s.status.busy = false)
    (hp : s.env.program = issueOp i ++ rest) :
    hostMove Config.chip s = (s.issue Config.chip (encode i)).reply (.write .okay) rest := by
  rw [hostMove_wr s (regOffset .cmd) (encode i) rest hp, if_neg (by decide)]
  exact congrArg (·.reply (.write .okay) rest) (afterWrite_cmd (encode i) s hb)

/-- Settles O10: the issue latches the word, the completion decodes it to the instruction. -/
theorem issuedInstructionRuns : Obligations.IssuedInstructionRuns := by
  unfold Obligations.IssuedInstructionRuns
  intro i s rest ts hwf hb hp ht
  refine ⟨_, step_host s _ ht, ?_⟩
  rw [hostMove_issue i (s.withTurns (.engine :: ts)) rest hb hp]
  refine ⟨rfl, rfl, ?_⟩
  rw [step_engine _ ts rfl rfl, reply_pending, issue_pending, decode_encode hwf]
  rfl

end Sys2Proof.Proofs
end

section
/-! PROOF. What a command leaves unchanged: the registers (the writes column of rule R91) and the bytes of the buffers
(rules R138, R139, R152, R164, R201). Each is read off the cases of `Effect`, or off the memory they leave. -/

namespace Sys2Proof.Proofs

open Sys2Proof.Machine Sys2Proof.Safety Sys2Proof.Laws

section
variable {i : Instr} {s : State} {r : Run}

/-! ## Registers -/

/-- Only ZEROIZE writes an input register besides the decode step. -/
theorem effect_inputs (he : Effect i s r) (hz : i ≠ .zeroize) : r.state.inputs = (afterDecode i s).inputs := by
  cases he with
  | stop k _ _ => rfl
  | wrongHash r _ => rfl
  | code r v _ _ _ => rfl
  | timedCode r v tc _ _ _ => rfl
  | done _ => rfl
  | expired v hi => subst hi; rw [afterDecode_not_decodes _ s rfl]; rfl
  | zeroized hi => exact absurd hi hz

/-- No command writes an input register but KEY_LEN and TEXT_LEN. -/
theorem effect_inputs_but_lengths (he : Effect i s r) :
    r.state.inputs = { s.inputs with keyLen := r.state.inputs.keyLen, textLen := r.state.inputs.textLen } := by
  have hd : (afterDecode i s).inputs =
      { s.inputs with keyLen := (afterDecode i s).inputs.keyLen, textLen := (afterDecode i s).inputs.textLen } := by
    obtain ⟨-, -, -, -, -, hin⟩ := afterDecode_frame i s
    rw [hin]
  cases he with
  | stop k _ _ => exact hd
  | wrongHash r _ => exact hd
  | code r v _ _ _ => exact hd
  | timedCode r v tc _ _ _ => exact hd
  | done _ => exact hd
  | expired v _ => rfl
  | zeroized _ => rfl

/-- The hash commands that read the time are the TOTP commands. -/
theorem totp_of_hashes_readsTime (hh : hashes i = true) (ht : readsTime i = true) : i = .totp ∨ i = .totpB32 := by
  cases i with
  | totp => exact .inl rfl
  | totpB32 => exact .inr rfl
  | nop | b32dec | expire | zeroize | illegal w => cases hh
  | hotp | hotpB32 => cases ht

/-- The result registers a command writes: none; the code's two, with TCOUNT for a TOTP command; or EXPIRY. -/
theorem effect_results (he : Effect i s r) :
    r.state.results = s.results
      ∨ (hashes i = true ∧ ∃ len val, r.state.results = { s.results with codeLen := len, codeVal := val })
      ∨ (hashes i = true ∧ (i = .totp ∨ i = .totpB32)
          ∧ ∃ len val tc, r.state.results = { s.results with codeLen := len, codeVal := val, tcount := tc })
      ∨ (i = .expire ∧ ∃ x, r.state.results = { s.results with expiry := x }) := by
  obtain ⟨-, -, hres, -, -, -⟩ := afterDecode_frame i s
  cases he with
  | stop k _ _ => exact .inl hres
  | wrongHash q _ => exact .inl hres
  | code q v ha _ _ => exact .inr (.inl ⟨ha.hashes, _, _, by rw [← hres]; rfl⟩)
  | timedCode q v tc ha ht _ =>
    exact .inr (.inr (.inl ⟨ha.hashes, totp_of_hashes_readsTime ha.hashes ht, _, _, _, by rw [← hres]; rfl⟩))
  | done _ => exact .inl hres
  | expired v hi => exact .inr (.inr (.inr ⟨hi, _, rfl⟩))
  | zeroized _ => exact .inl rfl

theorem effect_code_kept (he : Effect i s r) (hh : hashes i = false) :
    r.state.results.codeLen = s.results.codeLen ∧ r.state.results.codeVal = s.results.codeVal := by
  rcases effect_results he with e | ⟨h, -⟩ | ⟨h, -⟩ | ⟨-, x, e⟩
  · rw [e]; exact ⟨rfl, rfl⟩
  · rw [hh] at h; cases h
  · rw [hh] at h; cases h
  · rw [e]; exact ⟨rfl, rfl⟩

theorem effect_tcount_kept (he : Effect i s r) (ht : i ≠ .totp) (htb : i ≠ .totpB32) :
    r.state.results.tcount = s.results.tcount := by
  rcases effect_results he with e | ⟨-, len, val, e⟩ | ⟨-, h, -⟩ | ⟨-, x, e⟩
  · rw [e]
  · rw [e]
  · exact (h.elim ht htb).elim
  · rw [e]

theorem effect_expiry_kept (he : Effect i s r) (hx : i ≠ .expire) : r.state.results.expiry = s.results.expiry := by
  rcases effect_results he with e | ⟨-, len, val, e⟩ | ⟨-, -, len, val, tc, e⟩ | ⟨h, -⟩
  · rw [e]
  · rw [e]
  · rw [e]
  · exact absurd h hx

/-- A command leaves the environment, but for one request at the HMAC port that a hash command may make (log entry 4). -/
theorem effect_env (he : Effect i s r) :
    r.state.env = s.env
      ∨ (hashes i = true ∧ ∃ q, r.state.env = { s.env with hmacRequests := q :: s.env.hmacRequests }) := by
  obtain ⟨-, -, -, -, henv, -⟩ := afterDecode_frame i s
  cases he with
  | stop k _ _ => exact .inl henv
  | wrongHash q ha => exact .inr ⟨ha.hashes, q, by rw [← henv]; rfl⟩
  | code q v ha _ _ => exact .inr ⟨ha.hashes, q, by rw [← henv]; rfl⟩
  | timedCode q v tc ha _ _ => exact .inr ⟨ha.hashes, q, by rw [← henv]; rfl⟩
  | done _ => exact .inl henv
  | expired v _ => exact .inl rfl
  | zeroized _ => exact .inl rfl

theorem effect_env_but_requests (he : Effect i s r) :
    { r.state.env with hmacRequests := s.env.hmacRequests } = s.env := by
  rcases effect_env he with e | ⟨-, q, e⟩ <;> rw [e]

theorem effect_env_kept (he : Effect i s r) (hh : hashes i = false) : r.state.env = s.env :=
  (effect_env he).resolve_right fun h => by rw [hh] at h; cases h.1

/-! ## Memory -/

/-- A clear of a buffer reads as before outside it. -/
theorem read_clearBuffer_outside (b : Buffer) (s : State) (a : Nat)
    (h : ¬(bufferBase b ≤ a ∧ a < bufferBase b + bufferSize Config.chip b)) :
    (s.clearBuffer Config.chip b).mem.read a = s.mem.read a := by
  rw [clearBuffer_mem, read_store_zeros, if_neg h]

/-- A byte of the memory after a command that lies in no range the command writes reads as before. -/
theorem read_memAfter_outside (i : Instr) (s : State) (ok : Bool) (codeVal : Word) (a : Nat)
    (hcode : ¬(hashes i = true ∧ ok = true ∧ 0x080 ≤ a ∧ a < 0x080 + s.inputs.policy.digits.toNat))
    (hkey : ¬((decodeRuns i s = true ∨ i = .zeroize) ∧ 0x100 ≤ a ∧ a < 0x180))
    (htext : ¬(i = .zeroize ∧ 0x200 ≤ a ∧ a < 0x2C0)) :
    (memAfter i s ok codeVal).read a = s.mem.read a := by
  have hdecode : (afterDecode i s).mem.read a = s.mem.read a := by
    rw [afterDecode_read, if_neg fun h => hkey ⟨.inl h.1, h.2⟩]
  unfold memAfter
  split
  · next hz =>
    rw [read_clearBuffer_outside .text _ a fun h => htext ⟨hz, h⟩,
      read_clearBuffer_outside .key s a fun h => hkey ⟨.inr hz, h⟩]
  · split
    · next hok =>
      rw [read_store_outside _ _ _ _ fun h => ?_, hdecode]
      rw [length_renderDigits] at h
      exact hcode ⟨hok.1, hok.2, h⟩
    · exact hdecode

end

/-- Settles O30: completion adds only STATUS and `pending` to the writes of the procedure. -/
theorem commandRegisterFrame : Obligations.CommandRegisterFrame := by
  unfold Obligations.CommandRegisterFrame
  intro i s t ht
  obtain ⟨r, he, rfl⟩ := exec_effect i s t ht
  have hin := effect_inputs_but_lengths he
  obtain ⟨-, -, -, -, -, hdec⟩ := afterDecode_frame i s
  refine ⟨effect_ie he, (congrArg Status.ign (effect_status he) :), (congrArg Inputs.policy hin :),
    (congrArg Inputs.counter hin :), (congrArg Inputs.time hin :), (congrArg Inputs.epoch hin :),
    (congrArg Inputs.timeStep hin :),
    fun hz => ?_, fun hz hd => ?_, effect_code_kept he, effect_tcount_kept he, effect_expiry_kept he,
    effect_env_but_requests he, effect_env_kept he⟩
  · exact (congrArg Inputs.textLen ((effect_inputs he hz).trans hdec) :)
  · rw [complete_inputs, effect_inputs he hz, afterDecode_skips i s hd]

/-- Settles O31: the outcome and the results of a run determine its memory, which is the old one but for those ranges. -/
theorem commandMemoryFrame : Obligations.CommandMemoryFrame := by
  unfold Obligations.CommandMemoryFrame
  intro i s t a ht hcode hkey htext
  rw [exec_next i s t ht] at hcode ⊢
  rw [complete_mem, procOf_mem]
  refine read_memAfter_outside i s _ _ a (fun ⟨hh, hok, hin⟩ => hcode ⟨hh, ?_, hin⟩) hkey htext
  rw [complete_status, completed_fail]
  simpa using hok

end Sys2Proof.Proofs
end

section
/-! PROOF. The command cycle (40_command_cycle.md): the issue of a word (rule R112), the completion of its command
(rules R114, R116, R117), and whose move it is while BUSY = 1 and while BUSY = 0 (rules R113, R120, R240). -/

namespace Sys2Proof.Proofs

open Sys2Proof.Machine Sys2Proof.Safety Sys2Proof.Laws

/-! ## Issue -/

/-- A write to CMD while idle answers OKAY and issues the word, whatever it is. -/
theorem busWrite_cmd (w : Word) (s : State) (hb : s.status.busy = false) :
    busWrite Config.chip 0x00C w s = (s.issue Config.chip w, .okay) :=
  (busWrite_regOffset .cmd w s).trans (congrArg (·, Resp.okay) (unlessBusy_idle s _ hb))

/-- Settles O21: the write is the issue, which clears CODE and so stores no byte outside it. -/
theorem issueLatchesAndClears : Obligations.IssueLatchesAndClears := by
  unfold Obligations.IssueLatchesAndClears
  intro w s hb
  exact ⟨s.issue Config.chip w, busWrite_cmd w s hb, issue_pending s _ w, rfl, resultsClear_issue s w,
    issue_ie s _ w, issue_inputs s _ w, issue_env s _ w, read_clearBuffer_outside .code s,
    irq_of_not_done (issued_done s.status)⟩

/-! ## Completion -/

/-- Where the STATUS invariants hold, CAUSE is 0 exactly when FAIL is. -/
theorem statusOk_fail_iff {st : Status} (h : StatusOk st) : st.fail = false ↔ st.cause = 0 := by
  obtain ⟨-, hok, hfail, -⟩ := h
  refine ⟨hok, fun hc => Bool.eq_false_iff.mpr fun hf => ?_⟩
  obtain ⟨-, hpos, -⟩ := hfail hf
  rw [hc] at hpos
  exact absurd hpos (by decide)

theorem statusOk_cause_le {st : Status} (h : StatusOk st) : st.cause.toNat ≤ 0xD := by
  obtain ⟨-, hok, hfail, -⟩ := h
  cases hf : st.fail with
  | false => rw [hok hf]; decide
  | true => exact (hfail hf).2.2

/-- Settles O24: no procedure writes STATUS, and whatever its outcome the completion meets the STATUS invariants. -/
theorem everyCommandCompletes : Obligations.EveryCommandCompletes := by
  unfold Obligations.EveryCommandCompletes
  intro i s
  have hst : StatusOk (complete (procOf i s)).status := statusOk_completed _ _
  exact ⟨_, exec_eq i s, completed_busy _ _, completed_done _ _,
    (congrArg Status.ign (effect_status (procOf_effect i s)) :), complete_pending _,
    statusOk_fail_iff hst, statusOk_cause_le hst⟩

/-- Settles O36: ILLEGAL's procedure is the failure alone, and the decoder's two rejections are those of the rule. -/
theorem illegalWordFails : Obligations.IllegalWordFails := by
  unfold Obligations.IllegalWordFails
  intro w s
  exact ⟨(exec_eq (.illegal w) s).trans (congrArg _ (complete_fail_state .illegalCmd s)), rfl,
    fun h => ⟨w, decode_of_isIllegal ((isIllegal_iff w).mpr h)⟩⟩

/-! ## Whose move it is -/

/-- With no turn left a pending command completes (rule R120, log entry 3). -/
theorem step_noTurn_busy (s : State) (ht : s.env.turns = []) (hb : s.status.busy = true) :
    step s = exec (decode s.pending) s := by
  rw [step, takeTurn, ht]
  simp only [hb]
  rfl

/-- The engine's turn passes while no command is pending (rule R113). -/
theorem step_engine_idle (s : State) (ts : List Turn) (ht : s.env.turns = .engine :: ts) (hb : s.status.busy = false) :
    step s = .next (s.withTurns ts) := by
  rw [step, takeTurn, ht]
  simp only [moveOf, hb]
  rfl

/-- With no turn left, no command pending and no program, the machine waits (rule R240). -/
theorem step_noTurn_idle (s : State) (ht : s.env.turns = []) (hb : s.status.busy = false) (hp : s.env.program = []) :
    step s = .next s := by
  rw [step, takeTurn, ht]
  simp only [hb, hp]
  rfl

/-- The platform's turn is a reset, whether a command is pending or not (rule R240). -/
theorem step_reset (s : State) (ts : List Turn) (ht : s.env.turns = .reset :: ts) :
    step s = .next (hardReset (s.withTurns ts)) := by
  rw [step, takeTurn, ht]
  rfl

/-- Settles O4: the engine's turn and the end of the turns both run the command that is pending. -/
theorem stepRunsPendingCommand : Obligations.StepRunsPendingCommand := by
  unfold Obligations.StepRunsPendingCommand
  rintro s _ ts hb rfl
  exact ⟨fun ht => step_engine s ts ht hb, fun ht => step_noTurn_busy s ht hb⟩

/-- Settles O5: with BUSY = 0 neither the engine's turn nor the end of the turns runs a command. -/
theorem idleEngineDoesNotStep : Obligations.IdleEngineDoesNotStep := by
  unfold Obligations.IdleEngineDoesNotStep
  intro s ts hb
  exact ⟨fun ht => step_engine_idle s ts ht hb, fun ht hp => step_noTurn_idle s ht hb hp⟩

/-! ## Progress (rule R120) -/

theorem hostMove_turns (s : State) : (hostMove Config.chip s).env.turns = s.env.turns := by
  obtain ⟨_, -, ht, -, -⟩ := hostMove_effect s
  exact ht

/-- A step while a command is pending ends the command, or takes one of the turns laid down. -/
theorem step_ends_or_takes_turn (s : State) (hb : s.status.busy = true) :
    ∃ t, step s = .next t ∧ (t.status.busy = false ∨ ∃ turn, s.env.turns = turn :: t.env.turns) := by
  cases ht : s.env.turns with
  | nil => exact ⟨_, (step_noTurn_busy s ht hb).trans (exec_eq _ _), .inl rfl⟩
  | cons turn ts =>
    cases turn with
    | engine => exact ⟨_, (step_engine s ts ht hb).trans (exec_eq _ _), .inl rfl⟩
    | host => exact ⟨_, step_host s ts ht, .inr ⟨.host, by rw [hostMove_turns]; rfl⟩⟩
    | reset => exact ⟨_, step_reset s ts ht, .inl rfl⟩

/-- From every state, idle or busy, a run of at most one step more than the turns comes to BUSY = 0. -/
theorem run_reaches_idle (s : State) :
    ∃ k t, k ≤ s.env.turns.length + 1 ∧ core.run k s = .next t ∧ t.status.busy = false := by
  cases hb : s.status.busy with
  | false => exact ⟨0, s, Nat.zero_le _, rfl, hb⟩
  | true =>
    obtain ⟨t, hstep, hidle | ⟨turn, hcons⟩⟩ := step_ends_or_takes_turn s hb
    · exact ⟨1, t, by omega, run_succ core 0 s t hstep, hidle⟩
    · obtain ⟨k, u, hk, hrun, hu⟩ := run_reaches_idle t
      refine ⟨k + 1, u, ?_, (run_succ core k s t hstep).trans hrun, hu⟩
      rw [hcons, List.length_cons]
      exact Nat.succ_le_succ hk
termination_by s.env.turns.length
decreasing_by rw [hcons]; exact Nat.lt_succ_self _

/-- Settles O57: each step ends the command or takes a turn, and with the turns gone it ends the command. -/
theorem pendingCommandEnds : Obligations.PendingCommandEnds := by
  unfold Obligations.PendingCommandEnds
  exact fun s _ => run_reaches_idle s

end Sys2Proof.Proofs
end

section
/-! PROOF. Base32 (41_base32.md): the alphabet (rules R130, R131), and what the loop of rule R133 makes of a text of
symbols and of the first byte that is none. -/

namespace Sys2Proof.Proofs

open Sys2Proof.Machine Sys2Proof.Safety Sys2Proof.Laws

/-! ## The alphabet -/

theorem foldCase_toNat (b : Byte) :
    (foldCase b).toNat = if 0x61 ≤ b.toNat ∧ b.toNat ≤ 0x7A then b.toNat - 0x20 else b.toNat := by
  unfold foldCase
  split
  · have hlt := b.isLt
    rw [BitVec.toNat_sub, show (0x20 : Byte).toNat = 0x20 from rfl]
    omega
  · rfl

/-- The two ranges of rule R130, read backwards. -/
theorem symbolValue_eq_some_iff (c : Byte) (v : Nat) :
    symbolValue c = some v ↔ (v < 26 ∧ c.toNat = 0x41 + v) ∨ (26 ≤ v ∧ v < 32 ∧ c.toNat = 0x18 + v) := by
  unfold symbolValue
  split
  · rw [Option.some_inj]; omega
  · split
    · rw [Option.some_inj]; omega
    · exact iff_of_false nofun (by omega)

/-- The alphabet's characters are those of the two ranges, and only the letters have a lower case of their own. -/
theorem alphabet_toNat : ∀ v < 32,
    (alphabet.getD v '=').toNat = (if v < 26 then 0x41 + v else 0x18 + v)
      ∧ (alphabet.getD v '=').toLower.toNat = (if v < 26 then 0x61 + v else 0x18 + v) := by
  decide

theorem isSymbol_iff (b : Byte) (v : Nat) :
    IsSymbol b v ↔
      (v < 26 ∧ (b.toNat = 0x41 + v ∨ b.toNat = 0x61 + v)) ∨ (26 ≤ v ∧ v < 32 ∧ b.toNat = 0x18 + v) := by
  by_cases hv : v < 32
  · obtain ⟨hup, hlow⟩ := alphabet_toNat v hv
    rw [IsSymbol, hup, hlow]
    split <;> omega
  · exact iff_of_false (fun h => hv h.1) (by omega)

theorem symbolValue_foldCase_iff (b : Byte) (v : Nat) : symbolValue (foldCase b) = some v ↔ IsSymbol b v := by
  rw [symbolValue_eq_some_iff, isSymbol_iff, foldCase_toNat]
  split <;> omega

/-- Folding makes no byte a '=' that was none (rule R131). -/
theorem foldCase_eq_pad_iff (b : Byte) : foldCase b = padByte ↔ b = 0x3D := by
  rw [← BitVec.toNat_inj, ← BitVec.toNat_inj, foldCase_toNat, padByte, show (0x3D : Byte).toNat = 0x3D from rfl]
  split <;> omega

theorem isSymbol_not_pad {b : Byte} {v : Nat} (h : IsSymbol b v) : foldCase b ≠ padByte := by
  intro hp
  have hv := (symbolValue_foldCase_iff b v).mpr h
  rw [hp] at hv
  exact absurd hv nofun

/-- Settles O38: the two ranges of rule R130 in both cases are the alphabet's bytes. -/
theorem symbolTable : Obligations.SymbolTable := by
  unfold Obligations.SymbolTable
  exact fun b => ⟨symbolValue_foldCase_iff b, rfl⟩

/-! ## A run of '=' -/

/-- A run of '=' is counted, whatever follows it. -/
theorem b32loop_pads (acc bits pad p : Nat) (rest : List Byte) :
    b32loop acc bits pad (List.replicate p 0x3D ++ rest) = b32loop acc bits (pad + p) rest := by
  induction p generalizing pad with
  | zero => rfl
  | succ p ih =>
    rw [List.replicate_succ, List.cons_append, b32loop_pad _ _ _ _ _ ((foldCase_eq_pad_iff _).mpr rfl), ih,
      Nat.add_assoc, Nat.add_comm 1]

/-! ## The bytes of a text of symbols (rules R135 to R137, R141) -/

theorem digitsValue_eq_ofDigits (b : Nat) (ds : List Nat) : digitsValue b ds = Nat.ofDigits b ds.reverse := by
  rw [Nat.ofDigits_eq_foldr, List.foldr_reverse]
  simp only [digitsValue, Nat.cast_id, Nat.add_comm]

theorem digitsValue_cons (b d : Nat) (ds : List Nat) :
    digitsValue b (d :: ds) = d * b ^ ds.length + digitsValue b ds := by
  rw [digitsValue_eq_ofDigits, digitsValue_eq_ofDigits, List.reverse_cons, Nat.ofDigits_append, Nat.ofDigits_singleton,
    List.length_reverse]
  ring

/-- Of the number `n` of `w` bits, `out` is the whole bytes from the top, the leftover low bits dropped. -/
structure LeadingBytes (w n : Nat) (out : List Byte) : Prop where
  length : out.length = w / 8
  value : digitsValue 256 (out.map (·.toNat)) = n / 2 ^ (w % 8)

/-- One more byte on top of a number of `w` bits. -/
theorem LeadingBytes.cons {w n b : Nat} {out : List Byte} (h : LeadingBytes w n out) (hb : b < 256) :
    LeadingBytes (w + 8) (b * 2 ^ w + n) (BitVec.ofNat 8 b :: out) := by
  refine ⟨?_, ?_⟩
  · rw [List.length_cons, h.length]; omega
  · have hw : 2 ^ w = 256 ^ (w / 8) * 2 ^ (w % 8) := by
      rw [show 256 = 2 ^ 8 from rfl, ← pow_mul, ← pow_add, Nat.div_add_mod]
    rw [List.map_cons, digitsValue_cons, List.length_map, h.length, h.value, BitVec.toNat_ofNat, Nat.mod_eq_of_lt hb,
      Nat.add_mod_right, hw, ← mul_assoc, Nat.add_comm (_ * 2 ^ _),
      Nat.add_mul_div_right _ _ (Nat.two_pow_pos _), Nat.add_comm]

/-- The byte emitted from `k + 8` held bits `acc` is on top of what the `k` bits kept and `m` more symbols of value `v`
give (rule R135). -/
theorem LeadingBytes.emit {k m acc v : Nat} {out : List Byte}
    (h : LeadingBytes (k + 5 * m) (acc % 2 ^ k * 32 ^ m + v) out) (hacc : acc < 2 ^ (k + 8)) :
    LeadingBytes (k + 8 + 5 * m) (acc * 32 ^ m + v) (BitVec.ofNat 8 (acc / 2 ^ k) :: out) := by
  have hbyte : acc / 2 ^ k < 256 := Nat.div_lt_of_lt_mul (by rwa [pow_add] at hacc)
  have hsplit : acc / 2 ^ k * 2 ^ (k + 5 * m) + (acc % 2 ^ k * 32 ^ m + v) = acc * 32 ^ m + v := by
    rw [pow_add, pow_mul, ← mul_assoc, ← Nat.add_assoc, show 2 ^ 5 = 32 from rfl, ← Nat.add_mul, Nat.div_add_mod']
  rw [← hsplit, Nat.add_right_comm]
  exact h.cons hbyte

/-- Fewer than 8 bits make no byte. -/
theorem leadingBytes_nil {w n : Nat} (hw : w < 8) (hn : n < 2 ^ w) : LeadingBytes w n [] := by
  refine ⟨(Nat.div_eq_of_lt hw).symm, ?_⟩
  rw [Nat.mod_eq_of_lt hw, Nat.div_eq_of_lt hn]
  rfl

/-- The loop emits the leading bytes of the bits it holds and the symbols' bits after them. -/
theorem b32loop_symbols {ts : List Byte} {vs : List Nat} (h : List.Forall₂ IsSymbol ts vs) (p acc bits : Nat)
    (hbits : bits < 8) (hacc : acc < 2 ^ bits) :
    ∃ out, b32loop acc bits 0 (ts ++ List.replicate p 0x3D) = .ok out
      ∧ LeadingBytes (bits + 5 * ts.length) (acc * 32 ^ ts.length + digitsValue 32 vs) out := by
  induction h generalizing acc bits with
  | nil =>
    refine ⟨[], ?_, ?_⟩
    · rw [List.nil_append, ← List.append_nil (List.replicate _ _), b32loop_pads, b32loop_nil]
    · simpa [digitsValue] using leadingBytes_nil hbits hacc
  | @cons t v ts vs hsym htail ih =>
    have hv := (symbolValue_foldCase_iff t v).mpr hsym
    have hnew : acc * 32 + v < 2 ^ (bits + 5) := by
      have hv32 := hsym.1
      rw [pow_add]; omega
    have hnum : acc * 32 ^ (t :: ts).length + digitsValue 32 (v :: vs)
        = (acc * 32 + v) * 32 ^ ts.length + digitsValue 32 vs := by
      rw [digitsValue_cons, ← htail.length_eq, List.length_cons]
      ring
    rw [List.cons_append, hnum, List.length_cons]
    rcases Nat.lt_or_ge (bits + 5) 8 with hb | hb
    · obtain ⟨out, hout, hlead⟩ := ih (acc * 32 + v) (bits + 5) hb hnew
      refine ⟨out, (b32loop_hold _ _ _ _ _ (isSymbol_not_pad hsym) hv hb).trans hout, ?_⟩
      rwa [Nat.mul_add, Nat.add_comm (5 * _), ← Nat.add_assoc]
    · obtain ⟨k, hk⟩ := Nat.exists_eq_add_of_le' hb
      have hk' : bits + 5 - 8 = k := by omega
      obtain ⟨out, hout, hlead⟩ := ih ((acc * 32 + v) % 2 ^ k) k (by omega) (Nat.mod_lt _ (Nat.two_pow_pos _))
      refine ⟨BitVec.ofNat 8 ((acc * 32 + v) / 2 ^ k) :: out, ?_, ?_⟩
      · rw [b32loop_emit _ _ _ _ _ (isSymbol_not_pad hsym) hv hb, hk', hout]
        rfl
      · rw [show bits + 5 * (ts.length + 1) = k + 8 + 5 * ts.length by omega]
        exact hlead.emit (hk ▸ hnew)

/-- Settles O39: the loop begins with no bits held. -/
theorem base32BytesAreTheLeadingBits : Obligations.Base32BytesAreTheLeadingBits := by
  unfold Obligations.Base32BytesAreTheLeadingBits
  intro ts vs p h
  obtain ⟨out, hout, hlen, hval⟩ := b32loop_symbols h p 0 0 (by decide) (by decide)
  simp only [Nat.zero_add, Nat.zero_mul] at hlen hval
  exact ⟨out, hout, hlen, hval⟩

/-! ## The first bad byte (rules R132, R133) -/

/-- An error that stands after symbols whatever bits are held is the error of the whole text. -/
theorem b32loop_error_after_symbols {ts : List Byte} {vs : List Nat} (h : List.Forall₂ IsSymbol ts vs)
    {rest : List Byte} {k : Cause} (hrest : ∀ acc bits, b32loop acc bits 0 rest = .error k) (acc bits : Nat) :
    b32loop acc bits 0 (ts ++ rest) = .error k := by
  induction h generalizing acc bits with
  | nil => exact hrest acc bits
  | @cons t v ts vs hsym htail ih =>
    have hv := (symbolValue_foldCase_iff t v).mpr hsym
    rw [List.cons_append]
    rcases Nat.lt_or_ge (bits + 5) 8 with hb | hb
    · exact (b32loop_hold _ _ _ _ _ (isSymbol_not_pad hsym) hv hb).trans (ih _ _)
    · rw [b32loop_emit _ _ _ _ _ (isSymbol_not_pad hsym) hv hb, ih]
      rfl

/-- Settles O40: after the symbols the bad byte is an error at once, before a '=' and after one. -/
theorem base32FirstBadByteDecides : Obligations.Base32FirstBadByteDecides := by
  unfold Obligations.Base32FirstBadByteDecides
  intro ts vs b p rest hsym hb
  have hpad : foldCase b ≠ padByte := mt (foldCase_eq_pad_iff b).mp hb
  refine ⟨fun hnone => ?_, ?_⟩
  · have hv : symbolValue (foldCase b) = none :=
      Option.eq_none_iff_forall_ne_some.mpr fun v => mt (symbolValue_foldCase_iff b v).mp (hnone v)
    exact b32loop_error_after_symbols hsym (fun _ _ => b32loop_invalid _ _ _ _ hpad hv) 0 0
  · rw [List.append_assoc]
    refine b32loop_error_after_symbols hsym (fun _ _ => ?_) 0 0
    rw [b32loop_pads]
    exact b32loop_after_pad _ _ _ _ _ hpad (by omega)

/-! ## B32DEC (rules R138 to R140) -/

/-- The decode step writes KEY and KEY_LEN and nothing else (rule R139). -/
theorem setKey_keyWritten (s : State) {out : List Byte} (h : out.length ≤ 120) :
    KeyWritten out s (s.setKey Config.chip out) where
  holds := ⟨setKey_keyLen s out h, fun i hi => by
    rw [setKey_read, if_pos ⟨by omega, by omega⟩, Nat.add_sub_cancel_left]⟩
  outside a ha := by rw [setKey_read, if_neg ha]
  inputs := rfl
  rest := rfl

/-- Settles O41: the decode step's writes and the completion's are to different fields. -/
theorem b32decWritesKey : Obligations.B32decWritesKey := by
  unfold Obligations.B32decWritesKey
  intro s out ht hd
  refine ⟨_, exec_eq .b32dec s, ?_⟩
  rw [procOf, b32decProc, decodeText_ok s out ht hd]
  exact setKey_keyWritten (completedOk s) (decoded_length s out ht hd)

/-- Settles O42: a failed decode writes no bytes and zeros, and the length check comes before the decode. -/
theorem b32decFailures : Obligations.B32decFailures := by
  unfold Obligations.B32decFailures
  refine fun s => ⟨fun k ht hd => ⟨_, exec_eq .b32dec s, ?_⟩, fun ht => ?_⟩
  · rw [procOf, b32decProc, decodeText_error s k ht hd]
    exact setKey_keyWritten (completedFail k s) (by decide)
  · rw [exec_eq, procOf, b32decProc, decodeText_long s ht, complete_fail_state]

end Sys2Proof.Proofs
end

section
/-! PROOF. HOTP_B32 and TOTP_B32 (rules R163, R185): the message and the truncation of hotp_core in the rules' own terms
(rules R150, R157), what `HashOutcome` says of its stages, and the core run on the KEY and KEY_LEN of a decode. -/

namespace Sys2Proof.Proofs

open Sys2Proof.Machine Sys2Proof.Safety Sys2Proof.Laws

/-! ## The counter's message (rule R150) -/

theorem extractByte_eq (c : DWord) (k : Nat) : c.extractLsb' k 8 = BitVec.ofNat 8 (c.toNat / 2 ^ k) := by
  rw [← Nat.shiftRight_eq_div_pow]
  rfl

theorem counterBytes_eq_bigEndian8 (c : DWord) : counterBytes Config.chip c.toNat = bigEndian8 c := by
  simp only [bigEndian8, extractByte_eq]
  rfl

/-! ## Truncation (rule R157) -/

/-- The offset, as the rule masks it and as the machine computes it. -/
theorem truncationOffset_eq (h : List Byte) :
    ((h.getLastD 0) &&& 0x0F).toNat = (h.getD (h.length - 1) 0).toNat % 16 := by
  rw [List.getLastD_eq_getLast?, List.getLast?_eq_getElem?, ← List.getD_eq_getElem?_getD]
  exact (BitVec.toNat_and _ _).trans (Nat.and_two_pow_sub_one_eq_mod _ 4)

/-- Truncation, where its window lies in the hash, is the 31 bits of the rule. -/
theorem truncate_eq_truncatedValue (h : List Byte) (hw : ((h.getLastD 0) &&& 0x0F).toNat + 4 ≤ h.length) :
    truncate h = some (truncatedValue h) := by
  have hmask (b : Byte) : (b &&& 0x7F).toNat = b.toNat % 128 :=
    (BitVec.toNat_and _ _).trans (Nat.and_two_pow_sub_one_eq_mod _ 7)
  unfold truncate truncatedValue
  simp only [truncationOffset_eq] at hw ⊢
  rw [if_neg (by omega), Option.some_inj]
  simp only [append_toNat, hmask]
  omega

/-! ## The stages after the answer (rules R156 to R164) -/

/-- An answer of the digest's length is long enough for any window, and the stages write the rule's value. -/
theorem hashStages_of_length (alg : Alg) (h : List Byte) (s : State) (hl : h.length = Config.chip.hashLen alg) :
    truncatedValue h < 2 ^ 31 ∧ hashStages Config.chip alg h s =
      Run.ok (s.writeCode s.inputs.policy.digits.toNat (truncatedValue h % 10 ^ s.inputs.policy.digits.toNat)) := by
  have hge := hashLen_ge alg
  have ht := truncate_eq_truncatedValue h (by rw [truncationOffset_eq]; omega)
  obtain ⟨v, hv, hlt, he⟩ := hashStages_right alg h s hl
  rw [ht] at hv
  cases hv
  exact ⟨hlt, he⟩

/-- The stages make no request of their own. -/
theorem hashStages_env (alg : Alg) (h : List Byte) (s : State) : (hashStages Config.chip alg h s).state.env = s.env := by
  by_cases hl : h.length = Config.chip.hashLen alg
  · rw [(hashStages_of_length alg h s hl).2]; rfl
  · rw [hashStages_wrong alg h s hl]; rfl

/-- What `writeCode` leaves of a value that fits CODE_VAL, in `HashOutcome`'s terms. -/
theorem hashOutcome_writeCode {len : Nat} {h : List Byte} (s : State) (hl : h.length = len)
    (hlt : truncatedValue h < 2 ^ 31) :
    HashOutcome len s.results.tcount h s (complete (Run.ok (s.writeCode s.inputs.policy.digits.toNat
      (truncatedValue h % 10 ^ s.inputs.policy.digits.toNat)))) := by
  have hval : (BitVec.ofNat 32 (truncatedValue h % 10 ^ s.inputs.policy.digits.toNat)).toNat
      = truncatedValue h % 10 ^ s.inputs.policy.digits.toNat := by
    have := Nat.mod_le (truncatedValue h) (10 ^ s.inputs.policy.digits.toNat)
    rw [BitVec.toNat_ofNat, Nat.mod_eq_of_lt (by omega)]
  refine ⟨rfl, rfl, rfl, fun _ => ⟨rfl, BitVec.ofNat_toNat _ _, hval, rfl, rfl, fun i hi => ?_, fun a ha => ?_⟩,
    fun hne => absurd hl hne⟩
  · simp only [complete_results, complete_mem, run_ok_state, writeCode_results, writeCode_mem, bufferBase_code, hval]
    rw [read_store_inside _ _ _ _ (by rwa [length_renderDigits]), getD_renderDigits _ _ _ hi]
  · exact read_store_outside _ _ _ _ (by rwa [length_renderDigits])

/-- The completion of the stages, for every answer of the HMAC unit. -/
theorem hashOutcome_hashStages (alg : Alg) (h : List Byte) (s : State) :
    HashOutcome (Config.chip.hashLen alg) s.results.tcount h s (complete (hashStages Config.chip alg h s)) := by
  by_cases hl : h.length = Config.chip.hashLen alg
  · obtain ⟨hlt, he⟩ := hashStages_of_length alg h s hl
    rw [he]
    exact hashOutcome_writeCode s hl hlt
  · rw [hashStages_wrong alg h s hl]
    exact ⟨rfl, rfl, rfl, fun h => absurd h hl, fun _ => ⟨rfl, rfl, rfl⟩⟩

/-- A request changes nothing that `HashOutcome` speaks of. -/
theorem hashOutcome_of_requestHmac {len : Nat} {tc : Reg64} {h : List Byte} {s t : State} {r : HmacRequest}
    (ho : HashOutcome len tc h (s.requestHmac r) t) : HashOutcome len tc h s t :=
  ⟨ho.inputs, ho.ie, ho.pending, ho.right, ho.wrong⟩

/-- TCOUNT written after a run that ended ok, and only then (rule R186). -/
theorem hashOutcome_setTcount {len n : Nat} {tc : Reg64} {h : List Byte} {s : State} {r : Run}
    (ho : HashOutcome len tc h s (complete r)) :
    HashOutcome len (Reg64.ofVal Config.chip n) h s
      (complete (r.andThen fun s' => Run.ok (s'.setTcount Config.chip n))) := by
  obtain ⟨hin, hie, hpend, hright, hwrong⟩ := ho
  obtain ⟨u, k | k⟩ := r
  · refine ⟨hin, hie, hpend, fun hl => ?_, fun hl => absurd (congrArg Status.fail (hwrong hl).1) nofun⟩
    obtain ⟨hst, hlen, hval, -, hexp, hcode, hmem⟩ := hright hl
    exact ⟨hst, hlen, hval, rfl, hexp, hcode, hmem⟩
  · exact ⟨hin, hie, hpend, fun hl => absurd (congrArg Status.fail (hright hl).1) nofun, hwrong⟩

/-! ## The cores (rules R161, R180) -/

/-- Where hotp_core's checks pass, it makes one request and ends as `HashOutcome` says. -/
theorem hotpCore_computes (alg : Alg) (c : DWord) (s : State) (hc : CoreChecksPass s) :
    Requested ⟨alg, secretBytes s, bigEndian8 c⟩ s (complete (hotpCore Config.chip alg c.toNat s))
      ∧ HashOutcome (Config.chip.hashLen alg) s.results.tcount (Config.hmacUnit alg (secretBytes s) (bigEndian8 c)) s
          (complete (hotpCore Config.chip alg c.toNat s)) := by
  rw [hotpCore_asks alg _ s hc, coreRequest, counterBytes_eq_bigEndian8]
  exact ⟨hashStages_env alg _ _, hashOutcome_of_requestHmac (hashOutcome_hashStages alg _ (s.requestHmac _))⟩

/-- TOTP's core on a good triple is hotp_core on the window's index, which TCOUNT takes. -/
theorem totpCore_computes (alg : Alg) (tc : Reg64) (s : State) (hc : CoreChecksPass s) (ht : TripleOk s)
    (htc : pairValue tc = windowIndex s) :
    Requested ⟨alg, secretBytes s, bigEndian8 (tc.hi ++ tc.lo)⟩ s (complete (totpCore Config.chip alg s))
      ∧ HashOutcome (Config.chip.hashLen alg) tc
          (Config.hmacUnit alg (secretBytes s) (bigEndian8 (tc.hi ++ tc.lo))) s
          (complete (totpCore Config.chip alg s)) := by
  obtain ⟨hreq, hout⟩ := hotpCore_computes alg (tc.hi ++ tc.lo) s hc
  rw [toNat_append] at hreq hout
  rw [totpCore_of_ok alg s ht, ← htc]
  refine ⟨Eq.trans ?_ hreq, ?_⟩
  · cases hr : hotpCore Config.chip alg (pairValue tc) s with
    | mk u k => cases k <;> rfl
  · have := hashOutcome_setTcount (n := pairValue tc) hout
    rwa [ofVal_pairValue] at this

/-! ## The _B32 commands -/

/-- The policy checks and a nonempty decode are all that hotp_core checks after the decode step (rules R153 to R155). -/
theorem coreChecksPass_setKey (s : State) {out : List Byte} (h : out.length ≤ 120) (hne : out ≠ [])
    (hmin : s.inputs.policy.dmin.toNat ≤ s.inputs.policy.digits.toNat)
    (hmax : s.inputs.policy.digits.toNat ≤ s.inputs.policy.dmax.toNat) (hcap : s.inputs.policy.digits.toNat ≤ 10) :
    CoreChecksPass (s.setKey Config.chip out) := by
  have hpos := List.length_pos_iff.mpr hne
  refine ⟨?_, ?_, hmin, hmax, hcap⟩ <;> rw [setKey_keyLen s out h] <;> omega

/-- With a legal digest and a text that decodes, a _B32 command is its core on the state of the decode step (rules
R163, R185). -/
theorem withAlg_decodeText (s : State) {out : List Byte} {alg : Alg} {len : Nat} (core : Alg → State → Run)
    (halg : digestOf s.inputs.policy.alg = some (alg, len)) (ht : s.inputs.textLen.toNat ≤ 192)
    (hd : b32decode (textBytes s) = .ok out) :
    len = Config.chip.hashLen alg
      ∧ withAlg s (fun alg => (decodeText Config.chip s).andThen (core alg)) = core alg (s.setKey Config.chip out) := by
  obtain ⟨hlen, hrun⟩ := withAlg_of_digest s (fun alg => (decodeText Config.chip s).andThen (core alg)) alg len halg
  exact ⟨hlen, by rw [hrun, decodeText_ok s out ht hd, andThen_ok]⟩

/-- Settles O49: the decode step's state passes hotp_core's checks, and its secret is the decoded text. -/
theorem hotpB32ComputesCode : Obligations.HotpB32ComputesCode := by
  unfold Obligations.HotpB32ComputesCode
  intro s out alg len halg ht hd hne hmin hmax hcap
  have hlen := decoded_length s out ht hd
  have hsecret := setKey_secretBytes s out hlen
  obtain ⟨rfl, hrun⟩ := withAlg_decodeText s
    (fun alg u => hotpCore Config.chip alg (u.inputs.counter.val Config.chip) u) halg ht hd
  have hcore := hotpCore_computes alg (s.inputs.counter.hi ++ s.inputs.counter.lo) _
    (coreChecksPass_setKey s hlen hne hmin hmax hcap)
  rw [hsecret, toNat_append] at hcore
  refine ⟨s.setKey Config.chip out, _, exec_eq .hotpB32 s, setKey_keyWritten s hlen, hsecret, ?_⟩
  rw [procOf, hotpB32Proc, hrun]
  exact hcore

/-- Settles O50: as for HOTP_B32, with the time triple, and so the window's index, as before the decode step. -/
theorem totpB32ComputesCode : Obligations.TotpB32ComputesCode := by
  unfold Obligations.TotpB32ComputesCode
  intro s out alg len halg ht hd hne htriple hmin hmax hcap
  have hlen := decoded_length s out ht hd
  have hsecret := setKey_secretBytes s out hlen
  have htc := pairValue_ofVal (windowIndex s) (windowIndex_lt s)
  obtain ⟨rfl, hrun⟩ := withAlg_decodeText s (totpCore Config.chip) halg ht hd
  have hcore := totpCore_computes alg (Reg64.ofVal Config.chip (windowIndex s)) _
    (coreChecksPass_setKey s hlen hne hmin hmax hcap) htriple htc
  rw [hsecret] at hcore
  refine ⟨s.setKey Config.chip out, _, _, exec_eq .totpB32 s, setKey_keyWritten s hlen, hsecret, htc, ?_⟩
  rw [procOf, totpB32Proc, hrun]
  exact hcore

end Sys2Proof.Proofs
end

section
/-! PROOF. The message, truncation and rendering of hotp_core by the numbers they stand for (rules R150, R157 to R160),
its stages on any answer of the HMAC unit (rules R156, R164), and HOTP, with the empty code of DIGITS = 0 (rules R161,
R162, R165). -/

namespace Sys2Proof.Proofs

open Sys2Proof.Machine Sys2Proof.Safety Sys2Proof.Laws

/-! ## The counter's message (rule R150) -/

/-- The eight bytes are the digits of the counter to base 256. -/
theorem digitsValue_bigEndian8 (c : DWord) : digitsValue 256 ((bigEndian8 c).map (·.toNat)) = c.toNat := by
  have hc := c.isLt
  simp only [bigEndian8, extractByte_eq, digitsValue, List.map_cons, List.map_nil, List.foldl_cons, List.foldl_nil,
    BitVec.toNat_ofNat]
  omega

/-- Settles O43: each byte of the machine's message is the byte of the counter that the rule names. -/
theorem counterMessageIsBigEndian : Obligations.CounterMessageIsBigEndian := by
  unfold Obligations.CounterMessageIsBigEndian
  intro c
  have hbytes := counterBytes_eq_bigEndian8 c
  exact ⟨hbytes, by rw [hbytes, digitsValue_bigEndian8]⟩

/-! ## Truncation (rules R157, R158) -/

/-- A window that runs past the hash's end has no value. -/
theorem truncate_eq_none (h : List Byte) (hw : h.length < ((h.getLastD 0) &&& 0x0F).toNat + 4) : truncate h = none := by
  rw [truncationOffset_eq] at hw
  exact if_pos hw

/-- Without its top bit the first byte is below 2^7, so the four bytes stand for less than 2^31. -/
theorem truncatedValue_lt (h : List Byte) : truncatedValue h < 2 ^ 31 := by
  have hfirst (b : Byte) : (b &&& 0x7F).toNat < 2 ^ 7 := by
    rw [BitVec.toNat_and]
    exact Nat.and_lt_two_pow _ (by decide)
  have hfour (a b c d : Byte) (ha : a.toNat < 2 ^ 7) : (a ++ b ++ c ++ d).toNat < 2 ^ 31 := by
    simp only [append_toNat]
    omega
  exact hfour _ _ _ _ (hfirst _)

/-- Settles O44: a window in the hash, a window past its end, and the bound that the cleared sign bit gives. -/
theorem truncationReadsTheWindow : Obligations.TruncationReadsTheWindow := by
  unfold Obligations.TruncationReadsTheWindow
  exact fun h => ⟨truncate_eq_truncatedValue h, truncate_eq_none h, truncatedValue_lt h⟩

/-! ## Rendering (rules R159, R160) -/

theorem renderDigits_isDecimal (d val : Nat) : ∀ c ∈ renderDigits d val, 0x30 ≤ c.toNat ∧ c.toNat ≤ 0x39 := by
  intro c hc
  obtain ⟨i, -, rfl⟩ := List.mem_map.mp hc
  rw [decimalDigit_toNat]
  omega

/-- Settles O45: the characters stand for the value mod 10^digits, and so for a value below it. -/
theorem renderedDigitsStandForTheValue : Obligations.RenderedDigitsStandForTheValue := by
  unfold Obligations.RenderedDigitsStandForTheValue
  refine fun d val hval => ⟨length_renderDigits d val, ?_, renderDigits_isDecimal d val⟩
  rw [decimalValue_renderDigits, Nat.mod_eq_of_lt hval]

/-! ## The answer of the HMAC unit (rules R156, R164) -/

/-- The length that the rules give a digest is the HASHLEN the machine checks (rule R4). -/
theorem len_of_digestOf {code : BitVec 2} {alg : Alg} {len : Nat} (h : digestOf code = some (alg, len)) :
    len = Config.chip.hashLen alg := by
  unfold digestOf at h
  split_ifs at h <;> cases h <;> rfl

/-- Settles O46: the stages on any answer, at the HASHLEN of the digest that POLICY names. -/
theorem anyHmacAnswerIsChecked : Obligations.AnyHmacAnswerIsChecked := by
  unfold Obligations.AnyHmacAnswerIsChecked
  intro s alg len h halg _
  rw [len_of_digestOf halg]
  exact hashOutcome_hashStages alg h s

/-! ## HOTP (rules R161, R162, R165) -/

/-- Settles O47: HOTP is hotp_core on COUNTER, whose checks pass. -/
theorem hotpComputesCode : Obligations.HotpComputesCode := by
  unfold Obligations.HotpComputesCode
  intro s alg len halg hc
  obtain ⟨rfl, hrun⟩ := withAlg_of_digest s (fun alg => hotpCore Config.chip alg (s.inputs.counter.val Config.chip) s)
    alg len halg
  have hcore := hotpCore_computes alg (s.inputs.counter.hi ++ s.inputs.counter.lo) s hc
  rw [toNat_append] at hcore
  refine ⟨_, exec_eq .hotp s, ?_⟩
  rw [procOf, hotpProc, hrun]
  exact hcore

/-- A code of no digits writes the result registers with 0 and no byte of CODE. -/
theorem resultsClear_of_zeroDigits {len : Nat} {h : List Byte} {s t : State}
    (ho : HashOutcome len s.results.tcount h s t) (hd : s.inputs.policy.digits = 0) (hc : ResultsClear s) :
    ResultsClear t := by
  by_cases hl : h.length = len
  · obtain ⟨-, hlen, hval, htc, hexp, -, hmem⟩ := ho.right hl
    have hz : s.inputs.policy.digits.toNat = 0 := congrArg BitVec.toNat hd
    rw [hz, pow_zero, Nat.mod_one] at hval
    refine ⟨Results.ext (hlen.trans hd) (BitVec.eq_of_toNat_eq hval) ?_ ?_, fun i hi => ?_⟩
    · rw [htc, hc.1]
    · rw [hexp, hc.1]
    · rw [hmem _ (by omega)]
      exact hc.2 i hi
  · obtain ⟨-, hres, hmem⟩ := ho.wrong hl
    exact resultsClear_of_kept hc hres fun i _ => by rw [hmem]

/-- Settles O53: DMIN = DIGITS = 0 passes the policy and capacity checks, so HOTP makes its request. -/
theorem zeroDigitsGiveAnEmptyCode : Obligations.ZeroDigitsGiveAnEmptyCode := by
  unfold Obligations.ZeroDigitsGiveAnEmptyCode
  intro s alg len halg hd hmin hlo hhi hclear
  have hchecks : CoreChecksPass s := ⟨hlo, hhi, by rw [hd, hmin], by rw [hd]; exact Nat.zero_le _, by rw [hd]; decide⟩
  obtain ⟨t, ht, hreq, hout⟩ := hotpComputesCode s alg len halg hchecks
  refine ⟨t, _, ht, congrArg Env.hmacRequests hreq, resultsClear_of_zeroDigits hout hd hclear, ?_⟩
  split
  next hl =>
    obtain ⟨hst, -⟩ := hout.right hl
    rw [hst]
    exact ⟨rfl, rfl⟩
  next hl =>
    obtain ⟨hst, -⟩ := hout.wrong hl
    rw [hst]
    exact ⟨rfl, rfl⟩

end Sys2Proof.Proofs
end

section
/-! PROOF. What hotp_core's order of checks gives of every command: no TRUNC_RANGE (rules R156, R157), and one HMAC
request at most, after the checks (rule R151); and the _B32 commands as B32DEC followed by the byte-secret form (rules
R152, R163, R185). -/

namespace Sys2Proof.Proofs

open Sys2Proof.Machine Sys2Proof.Safety Sys2Proof.Laws

/-! ## TRUNC_RANGE (rules R156, R157) -/

theorem eq_truncRange_of_code (k : Cause) : k.code = 0xC → k = .truncRange := by
  cases k <;> decide

theorem effect_outcome_ne_truncRange {i : Instr} {s : State} {r : Run} (he : Effect i s r) :
    r.outcome ≠ some .truncRange := by
  cases he with
  | stop k _ htrunc => exact fun h => htrunc (Option.some.inj h)
  | wrongHash q _ => nofun
  | code q v _ _ _ => nofun
  | timedCode q v tc _ _ _ => nofun
  | done _ => nofun
  | expired v _ => nofun
  | zeroized _ => nofun

/-- Settles O27: no procedure ends with TRUNC_RANGE, and no other cause has its code. -/
theorem truncRangeIsNeverReported : Obligations.TruncRangeIsNeverReported := by
  unfold Obligations.TruncRangeIsNeverReported
  intro i s t h hcause
  obtain ⟨r, he, rfl⟩ := exec_effect i s t h
  rw [complete_status, completed_cause] at hcause
  cases ho : r.outcome with
  | none => rw [ho] at hcause; exact absurd hcause (by decide)
  | some k =>
    rw [ho] at hcause
    exact effect_outcome_ne_truncRange he (ho.trans (congrArg some (eq_truncRange_of_code k hcause)))

/-! ## The HMAC request (rule R151) -/

/-- The sizes of a request: the checks before it have bounded KEY_LEN (rule R153), and a counter has 8 bytes. -/
theorem asked_sizes {i : Instr} {s : State} {q : HmacRequest} (ha : Asked i s q) :
    1 ≤ q.key.length ∧ q.key.length ≤ 128 ∧ q.msg.length = 8 := by
  obtain ⟨hlo, hhi, -⟩ := ha.checks
  rw [ha.key, length_secretBytes]
  exact ⟨hlo, hhi, ha.msg⟩

/-- A procedure makes no request, or one, and then ends ok or with HASH_LEN. -/
theorem effect_requests {i : Instr} {s : State} {r : Run} (he : Effect i s r) :
    r.state.env.hmacRequests = s.env.hmacRequests
      ∨ (r.outcome = none ∨ r.outcome = some .hashLen)
        ∧ ∃ q, Asked i (afterDecode i s) q ∧ r.state.env.hmacRequests = q :: s.env.hmacRequests := by
  obtain ⟨-, -, -, -, henv, -⟩ := afterDecode_frame i s
  cases he with
  | stop k _ _ => exact .inl (congrArg Env.hmacRequests henv)
  | wrongHash q ha => exact .inr ⟨.inr rfl, q, ha, by rw [← henv]; rfl⟩
  | code q v ha _ _ => exact .inr ⟨.inl rfl, q, ha, by rw [← henv]; rfl⟩
  | timedCode q v tc ha _ _ => exact .inr ⟨.inl rfl, q, ha, by rw [← henv]; rfl⟩
  | done _ => exact .inl (congrArg Env.hmacRequests henv)
  | expired v _ => exact .inl rfl
  | zeroized _ => exact .inl rfl

/-- Settles O34: the request of a procedure, with the STATUS that its outcome completes to. -/
theorem atMostOneHmacRequest : Obligations.AtMostOneHmacRequest := by
  unfold Obligations.AtMostOneHmacRequest
  intro i s t h
  obtain ⟨r, he, rfl⟩ := exec_effect i s t h
  refine (effect_requests he).imp_right fun ⟨ho, q, ha, hreq⟩ => ⟨ha.hashes, ?_, q, hreq, asked_sizes ha⟩
  rw [complete_status, completed_fail, completed_cause]
  rcases ho with ho | ho <;> rw [ho]
  · exact .inl rfl
  · exact .inr rfl

/-! ## The _B32 commands (rules R152, R163, R185) -/

/-- The decode step writes no POLICY, so where the digest is legal the algorithm check can as well come after it. -/
theorem withAlg_decodeText_andThen (s : State) (core : Alg → State → Run) (halg : s.inputs.policy.alg ≠ 3) :
    withAlg s (fun alg => (decodeText Config.chip s).andThen (core alg))
      = (decodeText Config.chip s).andThen fun u => withAlg u fun alg => core alg u := by
  rcases withAlg_cases s (fun alg => (decodeText Config.chip s).andThen (core alg)) with ⟨h3, -⟩ | ⟨alg, hdig, he⟩
  · exact absurd h3 halg
  · rw [he]
    rcases decodeText_cases s with ⟨-, e⟩ | ⟨out, -, -, -, e⟩ | ⟨k, -, -, -, e⟩ <;> rw [e]
    · rfl
    · rw [andThen_ok, andThen_ok, (withAlg_of_digest (s.setKey Config.chip out) _ alg _ hdig).2]
    · rfl

theorem hotpB32Proc_eq (s : State) (halg : s.inputs.policy.alg ≠ 3) :
    hotpB32Proc Config.chip s = (b32decProc Config.chip s).andThen (hotpProc Config.chip) :=
  withAlg_decodeText_andThen s (fun alg u => hotpCore Config.chip alg (u.inputs.counter.val Config.chip) u) halg

theorem totpB32Proc_eq (s : State) (halg : s.inputs.policy.alg ≠ 3) :
    totpB32Proc Config.chip s = (b32decProc Config.chip s).andThen (totpProc Config.chip) :=
  withAlg_decodeText_andThen s (totpCore Config.chip) halg

theorem withAlg_reserved (s : State) (k : Alg → Run) (h3 : s.inputs.policy.alg = 3) :
    withAlg s k = Run.fail .badAlg s := by
  rw [withAlg, h3]
  rfl

/-- B32DEC ends ok with KEY and KEY_LEN written, or it fails. -/
theorem b32decProc_ok_or_fail (s : State) :
    (∃ out, b32decProc Config.chip s = Run.ok (s.setKey Config.chip out))
      ∨ ∃ k u, b32decProc Config.chip s = Run.fail k u := by
  rcases decodeText_cases s with ⟨-, e⟩ | ⟨out, -, -, -, e⟩ | ⟨k, -, -, -, e⟩
  · exact .inr ⟨_, _, e⟩
  · exact .inl ⟨out, e⟩
  · exact .inr ⟨k, _, e⟩

/-- Settles O51: with a legal digest a _B32 command is B32DEC's procedure, then the byte-secret one on its state. -/
theorem b32VariantsDelegate : Obligations.B32VariantsDelegate := by
  unfold Obligations.B32VariantsDelegate
  intro s t ht
  cases exec_next _ _ _ ht
  refine ⟨fun halg hok => ?_, fun halg hfail => ?_, fun h3 => ?_⟩
  · rw [procOf] at hok ⊢
    rcases b32decProc_ok_or_fail s with ⟨out, e⟩ | ⟨k, u, e⟩ <;> rw [e] at hok ⊢
    · simp only [exec_eq, procOf, hotpB32Proc_eq s halg, totpB32Proc_eq s halg, e, andThen_ok]
      exact ⟨rfl, rfl⟩
    · cases hok
  · rw [procOf] at hfail ⊢
    rcases b32decProc_ok_or_fail s with ⟨out, e⟩ | ⟨k, u, e⟩ <;> rw [e] at hfail ⊢
    · cases hfail
    · simp only [exec_eq, procOf, hotpB32Proc_eq s halg, totpB32Proc_eq s halg, e, andThen_fail, and_self]
  · simp only [exec_eq, procOf, hotpB32Proc, totpB32Proc, withAlg_reserved s _ h3, complete_fail_state, and_self]

end Sys2Proof.Proofs
end

section
/-! PROOF. TOTP as HOTP at the window's index (rules R180 to R186), and EXPIRE as the next window boundary after TIME
(rules R190 to R196). -/

namespace Sys2Proof.Proofs

open Sys2Proof.Machine Sys2Proof.Safety Sys2Proof.Laws

/-! ## TOTP (rules R183, R184, R186) -/

/-- Settles O48: TOTP is its core on KEY as it stands, with the window's index as a pair in TCOUNT. -/
theorem totpComputesCode : Obligations.TotpComputesCode := by
  unfold Obligations.TotpComputesCode
  intro s alg len halg hc htriple
  have htc := pairValue_ofVal (windowIndex s) (windowIndex_lt s)
  obtain ⟨rfl, hrun⟩ := withAlg_of_digest s (fun alg => totpCore Config.chip alg s) alg len halg
  refine ⟨_, _, exec_eq .totp s, htc, ?_⟩
  rw [procOf, totpProc, hrun]
  exact totpCore_computes alg _ s hc htriple htc

/-! ## TOTP and HOTP -/

/-- `s` with the pair `c` in COUNTER. -/
def withCounter (c : Reg64) (s : State) : State :=
  { s with inputs := { s.inputs with counter := c } }

/-- The run `r` ending in its state with `c` in COUNTER. -/
def runWithCounter (c : Reg64) (r : Run) : Run :=
  { r with state := withCounter c r.state }

/-- The stages neither read nor write COUNTER. -/
theorem hashStages_withCounter (alg : Alg) (h : List Byte) (c : Reg64) (s : State) :
    hashStages Config.chip alg h (withCounter c s) = runWithCounter c (hashStages Config.chip alg h s) := by
  by_cases hl : h.length = Config.chip.hashLen alg
  · rw [(hashStages_of_length alg h s hl).2, (hashStages_of_length alg h _ hl).2]
    rfl
  · rw [hashStages_wrong alg h s hl, hashStages_wrong alg h _ hl]
    rfl

/-- hotp_core takes its counter as an argument: it neither reads nor writes COUNTER (rule R161). -/
theorem hotpCore_withCounter (alg : Alg) (n : Nat) (c : Reg64) (s : State) :
    hotpCore Config.chip alg n (withCounter c s) = runWithCounter c (hotpCore Config.chip alg n s) := by
  rw [hotpCore_eq alg n s]
  simp only [apply_ite (runWithCounter c), ← hashStages_withCounter]
  exact hotpCore_eq alg n (withCounter c s)

/-- With a legal digest, HOTP with `c` in COUNTER is hotp_core on the value of `c`, with `c` left in COUNTER. -/
theorem hotpProc_withCounter {alg : Alg} {len : Nat} (c : Reg64) (s : State)
    (halg : digestOf s.inputs.policy.alg = some (alg, len)) :
    hotpProc Config.chip (withCounter c s) = runWithCounter c (hotpCore Config.chip alg (pairValue c) s) :=
  (withAlg_of_digest (withCounter c s) _ alg len halg).2.trans (hotpCore_withCounter alg (pairValue c) c s)

/-- Settles O52: both commands are hotp_core on the window's index, which TOTP puts in TCOUNT and HOTP has in COUNTER. -/
theorem totpDelegatesToHotp : Obligations.TotpDelegatesToHotp := by
  unfold Obligations.TotpDelegatesToHotp
  intro s t u c halg htriple hc ht hu
  rcases withAlg_cases s fun alg => totpCore Config.chip alg s with ⟨h3, -⟩ | ⟨alg, hdig, hrun⟩
  · exact absurd h3 halg
  · have hu' : u = complete (hotpProc Config.chip (withCounter c s)) := exec_next .hotp _ u hu
    rw [exec_next .totp s t ht, hu', procOf, totpProc, hrun, totpCore_of_ok alg s htriple, ← hc,
      hotpProc_withCounter c s hdig]
    rcases hotpCore_cases alg (pairValue c) s with ⟨k, -, -, e⟩ | ⟨-, -, e⟩ | ⟨v, -, -, -, -, e⟩ <;> rw [e]
    · exact ⟨rfl, rfl, rfl⟩
    · exact ⟨rfl, rfl, rfl⟩
    · exact ⟨rfl, rfl, ofVal_pairValue c⟩

/-! ## The end of the window (rules R192, R194, R196) -/

/-- The window's end is a whole number of steps after EPOCH. -/
theorem windowEnd_sub_epoch (s : State) :
    windowEnd s - pairValue s.inputs.epoch = pairValue s.inputs.timeStep * (windowIndex s + 1) := by
  rw [windowEnd, Nat.add_assoc, Nat.add_sub_cancel_left, ← Nat.succ_mul, Nat.mul_comm]

section
variable {s : State} (h : TripleOk s)
include h

/-- The window's end by rule R194's formula. -/
theorem windowEnd_eq_from_time :
    windowEnd s = pairValue s.inputs.time
      - (pairValue s.inputs.time - pairValue s.inputs.epoch) % pairValue s.inputs.timeStep
      + pairValue s.inputs.timeStep := by
  have hmod := Nat.mod_le (pairValue s.inputs.time - pairValue s.inputs.epoch) (pairValue s.inputs.timeStep)
  rw [windowEnd_eq s h]
  obtain ⟨-, hepoch⟩ := h
  omega

theorem time_lt_windowEnd : pairValue s.inputs.time < windowEnd s := by
  obtain ⟨hstep, hepoch⟩ := h
  have := Nat.lt_div_mul_add (a := pairValue s.inputs.time - pairValue s.inputs.epoch) (Nat.pos_of_ne_zero hstep)
  unfold windowEnd windowIndex
  omega

theorem windowEnd_sub_step_le_time : windowEnd s - pairValue s.inputs.timeStep ≤ pairValue s.inputs.time := by
  rw [windowEnd_eq_from_time h, Nat.add_sub_cancel]
  exact Nat.sub_le _ _

/-- A whole number of steps from EPOCH that passes TIME is more steps than the window's index. -/
theorem windowEnd_le_of_boundary {r : Nat} (hr : pairValue s.inputs.time < r)
    (hmod : (r - pairValue s.inputs.epoch) % pairValue s.inputs.timeStep = 0) : windowEnd s ≤ r := by
  obtain ⟨q, hq⟩ := Nat.dvd_of_mod_eq_zero hmod
  obtain ⟨-, hepoch⟩ := h
  have hindex : windowIndex s + 1 ≤ q := Nat.div_lt_of_lt_mul (by omega)
  have hsteps := Nat.mul_le_mul_left (pairValue s.inputs.timeStep) hindex
  have := windowEnd_sub_epoch s
  omega

end

/-! ## EXPIRE (rules R190, R195) -/

theorem exec_expire_of_fits {s : State} (h : TripleOk s) (hfit : windowEnd s < 2 ^ 64) :
    exec .expire s = .next (completedOk (s.setExpiry Config.chip (windowEnd s))) := by
  obtain ⟨hstep, hepoch⟩ := h
  rw [exec_eq, procOf]
  rcases expireProc_cases s with ⟨hz, -⟩ | ⟨-, hlt, -⟩ | ⟨-, hov, -⟩ | ⟨-, -, e⟩
  · exact absurd hz hstep
  · omega
  · omega
  · rw [e, complete_ok_state]

theorem exec_expire_overflow_iff {s : State} (h : TripleOk s) :
    exec .expire s = .next (completedFail .overflow s) ↔ 2 ^ 64 ≤ windowEnd s := by
  refine ⟨fun hex => ?_, fun hov => ?_⟩
  · by_contra hfit
    rw [exec_expire_of_fits h (by omega)] at hex
    cases hex
  · obtain ⟨hstep, hepoch⟩ := h
    rw [exec_eq, procOf]
    rcases expireProc_cases s with ⟨hz, -⟩ | ⟨-, hlt, -⟩ | ⟨-, -, e⟩ | ⟨-, hfit, -⟩
    · exact absurd hz hstep
    · omega
    · rw [e, complete_fail_state]
    · omega

/-- EXPIRE that did not fail had a good triple, and EXPIRY is the window's end. -/
theorem expiry_of_exec_expire {s t : State} (ht : exec .expire s = .next t) (hok : t.status.fail = false) :
    TripleOk s ∧ pairValue t.results.expiry = windowEnd s := by
  rw [exec_next .expire s t ht, procOf] at hok ⊢
  rcases expireProc_cases s with ⟨-, e⟩ | ⟨-, -, e⟩ | ⟨-, -, e⟩ | ⟨htriple, hfit, e⟩ <;> rw [e] at hok ⊢
  · cases hok
  · cases hok
  · cases hok
  · exact ⟨htriple, pairValue_ofVal _ hfit⟩

/-- Settles O54: EXPIRY is the one write of the ok case. -/
theorem expireComputesWindowEnd : Obligations.ExpireComputesWindowEnd := by
  unfold Obligations.ExpireComputesWindowEnd
  exact fun s h hfit => ⟨_, pairValue_ofVal _ hfit, exec_expire_of_fits h hfit⟩

/-- Settles O55: the cases exclude each other, and rule R194's formula is the window's end. -/
theorem expireFailures : Obligations.ExpireFailures := by
  unfold Obligations.ExpireFailures
  refine fun s => ⟨fun hz => ?_, fun hstep hlt => ?_, fun h => ?_⟩
  · rw [exec_eq, procOf]
    rcases expireProc_cases s with ⟨-, e⟩ | ⟨hstep, -⟩ | ⟨⟨hstep, -⟩, -⟩ | ⟨⟨hstep, -⟩, -⟩
    · rw [e, complete_fail_state]
    all_goals exact absurd hz hstep
  · rw [exec_eq, procOf]
    rcases expireProc_cases s with ⟨hz, -⟩ | ⟨-, -, e⟩ | ⟨⟨-, hepoch⟩, -⟩ | ⟨⟨-, hepoch⟩, -⟩
    · exact absurd hz hstep
    · rw [e, complete_fail_state]
    all_goals omega
  · rw [← windowEnd_eq_from_time h]
    exact exec_expire_overflow_iff h

/-- Settles O56: the four properties are the window's end's. -/
theorem expiryIsTheNextBoundary : Obligations.ExpiryIsTheNextBoundary := by
  unfold Obligations.ExpiryIsTheNextBoundary
  intro s t ht hok
  obtain ⟨htriple, hexp⟩ := expiry_of_exec_expire ht hok
  rw [hexp]
  refine ⟨time_lt_windowEnd htriple, ?_, windowEnd_sub_step_le_time htriple, fun r => windowEnd_le_of_boundary htriple⟩
  rw [windowEnd_sub_epoch, Nat.mul_mod_right]

end Sys2Proof.Proofs
end

section
/-! PROOF. The control commands (44_control.md): NOP as the completion alone (rule R200), and ZEROIZE as the clear of KEY,
TEXT and their lengths (rule R201). -/

namespace Sys2Proof.Proofs

open Sys2Proof.Machine Sys2Proof.Safety Sys2Proof.Laws

/-- Settles O35: NOP's procedure is the ok outcome alone. -/
theorem nopCompletesOk : Obligations.NopCompletesOk := by
  unfold Obligations.NopCompletesOk
  exact fun s => (exec_eq .nop s).trans (congrArg _ (complete_ok_state s))

/-! ## ZEROIZE (rule R201) -/

/-- A clear of a buffer leaves 0 in each of its bytes. -/
theorem read_clearBuffer_inside (b : Buffer) (s : State) (i : Nat) (hi : i < bufferSize Config.chip b) :
    (s.clearBuffer Config.chip b).mem.read (bufferBase b + i) = 0 := by
  rw [clearBuffer_mem, read_store_zeros, if_pos ⟨by omega, by omega⟩]

/-- ZEROIZE's memory is the clear of KEY, then of TEXT. -/
theorem zeroizeProc_mem (s : State) :
    (zeroizeProc Config.chip s).state.mem = ((s.clearBuffer Config.chip .key).clearBuffer Config.chip .text).mem := rfl

/-- But for the memory, ZEROIZE is the ok completion of the state with both lengths 0. -/
theorem complete_zeroizeProc_withMem (s : State) :
    { complete (zeroizeProc Config.chip s) with mem := s.mem } =
      completedOk { s with inputs := { s.inputs with keyLen := 0, textLen := 0 } } := rfl

/-- Settles O37: KEY's zeros survive the clear of TEXT, as the two buffers share no byte, and no other byte is in
either. -/
theorem zeroizeErasesSecrets : Obligations.ZeroizeErasesSecrets := by
  unfold Obligations.ZeroizeErasesSecrets
  intro s
  refine ⟨_, exec_eq .zeroize s, fun i hi => ?_, fun i hi => ?_, fun a hkey htext => ?_, complete_zeroizeProc_withMem s⟩
    <;> rw [complete_mem, procOf, zeroizeProc_mem]
  · have hapart : ¬(0x200 ≤ 0x100 + i ∧ 0x100 + i < 0x2C0) := by omega
    exact (read_clearBuffer_outside .text _ _ hapart).trans (read_clearBuffer_inside .key s i hi)
  · exact read_clearBuffer_inside .text _ i hi
  · exact (read_clearBuffer_outside .text _ a htext).trans (read_clearBuffer_outside .key s a hkey)

end Sys2Proof.Proofs
end

section
/-! PROOF. The errors of 60_exceptions.md: a bad bus access (rule R216), the cause codes (rule R210), a completion beside
the host's writes (rule R213), what a failure leaves (rules R211, R214), and the cause as the first check that fails in
the merged order (rule R212). -/

namespace Sys2Proof.Proofs

open Sys2Proof.Machine Sys2Proof.Safety Sys2Proof.Laws

/-! ## Bad bus accesses (rules R67, R216) -/

/-- Settles O12: an offset names nothing, a register, or a word of a buffer, and only the first answers BUSERR. -/
theorem busErrorExactlyOffTheMap : Obligations.BusErrorExactlyOffTheMap := by
  unfold Obligations.BusErrorExactlyOffTheMap readAt busRead busWrite
  intro off v s
  rcases target_cases off with ⟨h, e⟩ | ⟨h, r, -, e⟩ | ⟨h, b, k, -, -, e⟩ <;> rw [e]
  · exact ⟨fun _ => ⟨rfl, rfl⟩, fun hn => absurd h hn⟩
  · exact ⟨fun hn => absurd hn h, fun _ => ⟨rfl, rfl⟩⟩
  · exact ⟨fun hn => absurd hn h, fun _ => ⟨rfl, rfl⟩⟩

/-! ## The cause codes (rule R210) -/

/-- Settles O25: the codes are the definition's, and a failure's STATUS has DONE, FAIL and CAUSE beside IGN. -/
theorem causeCodesInStatus : Obligations.CauseCodesInStatus := by
  unfold Obligations.CauseCodesInStatus
  refine ⟨rfl, fun k s hign => ?_⟩
  have hread : readAt 0x010 (completedFail k s) = ((completedFail k s).status.word, .okay) := readAt_regOffset .status _
  rw [hread, statusWord_toNat, completedFail, hign]
  simp only [Bool.toNat_true, Bool.toNat_false]
  omega

/-! ## A completion beside the host's writes (rule R213) -/

/-- A write to CMD while a command is pending is dropped and sets IGN. -/
theorem afterWrite_cmd_busy (w : Word) (s : State) (hb : s.status.busy = true) :
    afterWrite 0x00C w s = { s with status := s.status.ignored } :=
  congrArg Prod.fst (busWrite_reg_busy .cmd w s (.inl rfl) hb)

/-- Settles O23: every state completes, with DONE set and IGN kept; and a completed state is idle, so it takes a CMD
write as an issue. -/
theorem completionOrdersWithWrites : Obligations.CompletionOrdersWithWrites := by
  unfold Obligations.CompletionOrdersWithWrites
  intro i w s t hb _ ht
  have hidle : t.status.busy = false := by rw [exec_next i s t ht, complete_status, completed_busy]
  refine ⟨?_, ?_, ?_, ?_⟩
  · obtain ⟨t', ht', -, hdone, -⟩ := everyCommandCompletes i (afterWrite 0x010 0x2 s)
    exact ⟨t', ht', hdone⟩
  · rw [afterWrite_status]
    exact Bool.and_false _
  · obtain ⟨t', ht', hbusy, -, hign, -⟩ := everyCommandCompletes i (afterWrite 0x00C w s)
    rw [afterWrite_cmd_busy w s hb] at hign
    exact ⟨t', ht', hbusy, hign⟩
  · rw [afterWrite_cmd w t hidle]
    exact ⟨rfl, rfl⟩

/-! ## What a failure leaves (rules R211, R214) -/

/-- A failing procedure has written nothing but its decode step's KEY and KEY_LEN, and the trace of its request. -/
theorem effect_state_of_fail {i : Instr} {s : State} {r : Run} (he : Effect i s r) (hf : r.outcome.isSome = true) :
    r.state = { afterDecode i s with env := r.state.env } := by
  cases he with
  | stop k _ _ => rfl
  | wrongHash q _ => rfl
  | code q v _ _ _ => cases hf
  | timedCode q v tc _ _ _ => cases hf
  | done _ => cases hf
  | expired v _ => cases hf
  | zeroized _ => cases hf

/-- A command that failed has left the registers and the memory of its decode step. -/
theorem exec_fail {i : Instr} {s t : State} (ht : exec i s = .next t) (hf : t.status.fail = true) :
    t.ie = s.ie ∧ t.results = s.results ∧ t.inputs = (afterDecode i s).inputs ∧ t.mem = (afterDecode i s).mem := by
  obtain ⟨hie, -, hres, -, -, -⟩ := afterDecode_frame i s
  obtain ⟨r, he, rfl⟩ := exec_effect i s t ht
  have hstate := effect_state_of_fail he hf
  rw [complete_ie, complete_results, complete_inputs, complete_mem, hstate]
  exact ⟨hie, hres, rfl, rfl⟩

/-- Settles O28: the decode step writes no result and no byte of CODE. -/
theorem failureLeavesResultsClear : Obligations.FailureLeavesResultsClear := by
  unfold Obligations.FailureLeavesResultsClear
  intro i s t ht hf
  obtain ⟨-, hres, -, hmem⟩ := exec_fail ht hf
  have hcode : ∀ j < 16, t.mem.read (0x080 + j) = s.mem.read (0x080 + j) := fun j hj => by
    rw [hmem, afterDecode_read, if_neg (by omega)]
  exact ⟨hres, hcode, fun hc => resultsClear_of_kept hc hres hcode⟩

/-- Settles O29: the registers and the memory are those of the decode step, which writes KEY and KEY_LEN where it runs. -/
theorem failuresArePrecise : Obligations.FailuresArePrecise := by
  unfold Obligations.FailuresArePrecise
  intro i s t ht hf
  obtain ⟨hie, hres, hin, hmem⟩ := exec_fail ht hf
  obtain ⟨-, -, -, -, -, hkeyLen⟩ := afterDecode_frame i s
  refine ⟨hie, hres, by rw [hin]; exact hkeyLen, fun a ha => ?_, fun hd => ?_, fun hd => ?_, ?_⟩
  · rw [hmem, afterDecode_read, if_neg fun h => ha h.2]
  · rw [hin, hmem, afterDecode_skips i s hd]
    exact ⟨rfl, rfl⟩
  · unfold KeyHolds
    rw [hin, hmem]
    exact afterDecode_keyHolds i s hd
  · obtain ⟨r, he, rfl⟩ := exec_effect i s t ht
    exact effect_env_but_requests he

end Sys2Proof.Proofs
end

section
/-! PROOF. The merged order of checks (rule R212): the table's rows in groups, one per check of the procedures, and each
procedure's outcome as that of the first group with a row that fails. -/

namespace Sys2Proof.Proofs

open Sys2Proof.Machine Sys2Proof.Safety Sys2Proof.Laws

/-! ## The first failing row -/

/-- The cause of the first of `rows` that fails. -/
def firstOf (rows : List (Bool × Cause)) : Option Cause :=
  (rows.find? (·.1)).map (·.2)

@[simp] theorem firstOf_nil : firstOf [] = none := rfl

@[simp] theorem firstOf_rank_skip (fails : Bool) (k : Cause) (rows : List (Bool × Cause)) :
    firstOf (rank false fails k :: rows) = firstOf rows := rfl

@[simp] theorem firstOf_rank (fails : Bool) (k : Cause) (rows : List (Bool × Cause)) :
    firstOf (rank true fails k :: rows) = if fails = true then some k else firstOf rows := by
  cases fails <;> rfl

theorem firstOf_append (rows rows' : List (Bool × Cause)) :
    firstOf (rows ++ rows') = (firstOf rows).or (firstOf rows') := by
  rw [firstOf, List.find?_append, Option.map_or]
  rfl

/-! ## The groups of rows -/

/-- The algorithm check: rank 2. -/
def algRows (i : Instr) (s : State) : List (Bool × Cause) :=
  [rank (hashes i) (decide (s.inputs.policy.alg = 3)) .badAlg]

/-- The checks of the decode: ranks 3 and 4. -/
def textRows (i : Instr) (s : State) : List (Bool × Cause) :=
  [rank (decodesText i) (decide (192 < s.inputs.textLen.toNat)) .lenRange,
    rank (decodesText i) (decodeFailsWith .b32Pad s) .b32Pad,
    rank (decodesText i) (decodeFailsWith .b32Char s) .b32Char]

/-- The checks of the time triple: ranks 5 and 6. -/
def timeRows (i : Instr) (s : State) : List (Bool × Cause) :=
  [rank (readsTime i) (decide (pairValue s.inputs.timeStep = 0)) .zeroStep,
    rank (readsTime i) (decide (pairValue s.inputs.time < pairValue s.inputs.epoch)) .timeBeforeEpoch]

/-- The check of the window's end: rank 7. -/
def expireRows (i : Instr) (s : State) : List (Bool × Cause) :=
  [rank (decide (i = .expire)) (decide (2 ^ 64 ≤ windowEnd s)) .overflow]

/-- The table of rule R212 is its groups in order. -/
theorem firstFailure_eq (i : Instr) (s : State) :
    firstFailure i s = (firstOf [rank (isIllegal i) true .illegalCmd]).or ((firstOf (algRows i s)).or
      ((firstOf (textRows i s)).or ((firstOf (timeRows i s)).or ((firstOf (expireRows i s)).or
        (firstOf (ranksOfCore i s)))))) := by
  simp only [← firstOf_append]
  rfl

section
variable {i : Instr} {s : State}

theorem firstOf_algRows_skip (h : hashes i = false) : firstOf (algRows i s) = none := by simp [algRows, h]

theorem firstOf_textRows_skip (h : decodesText i = false) : firstOf (textRows i s) = none := by simp [textRows, h]

theorem firstOf_timeRows_skip (h : readsTime i = false) : firstOf (timeRows i s) = none := by simp [timeRows, h]

theorem firstOf_ranksOfCore_skip (h : hashes i = false) : firstOf (ranksOfCore i s) = none := by
  simp [ranksOfCore, h]

/-- The table for the hash commands: algorithm, decode, time triple, hotp_core. -/
theorem firstFailure_of_hashes (h : hashes i = true) :
    firstFailure i s = (firstOf (algRows i s)).or ((firstOf (textRows i s)).or ((firstOf (timeRows i s)).or
      (firstOf (ranksOfCore i s)))) := by
  rw [firstFailure_eq]
  cases i with
  | hotp | hotpB32 | totp | totpB32 => rfl
  | nop | b32dec | expire | zeroize | illegal w => cases h

/-! ## The outcome of each check -/

/-- A part that only writes decides no outcome. -/
theorem andThen_ok_outcome (r : Run) (f : State → State) : (r.andThen fun u => Run.ok (f u)).outcome = r.outcome := by
  obtain ⟨u, k | k⟩ := r <;> rfl

theorem alg_ne_of_digestOf {alg : Alg} {len : Nat} (h : digestOf s.inputs.policy.alg = some (alg, len)) :
    s.inputs.policy.alg ≠ 3 := fun h3 => by
  rw [h3] at h
  cases h

/-- The algorithm check, and what runs where it passes (rule R152). -/
theorem withAlg_outcome {k : Alg → Run} {o : Option Cause} (hh : hashes i = true)
    (hk : ∀ alg, digestOf s.inputs.policy.alg = some (alg, Config.chip.hashLen alg) → (k alg).outcome = o) :
    (withAlg s k).outcome = (firstOf (algRows i s)).or o := by
  simp only [algRows, hh, firstOf_rank, firstOf_nil, decide_eq_true_eq]
  rcases withAlg_cases s k with ⟨h3, e⟩ | ⟨alg, hdig, e⟩
  · rw [e, if_pos h3]
    rfl
  · rw [e, if_neg (alg_ne_of_digestOf hdig), hk alg hdig]
    rfl

/-- The outcome of a decode (rules R138, R139). -/
theorem decodeText_outcome (hd : decodesText i = true) :
    (decodeText Config.chip s).outcome = firstOf (textRows i s) := by
  simp only [textRows, hd, firstOf_rank, firstOf_nil, decide_eq_true_eq, decodeFailsWith]
  rcases decodeText_cases s with ⟨hlong, e⟩ | ⟨out, hlen, hdec, -, e⟩ | ⟨k, hlen, hdec, hk, e⟩
  · rw [e, if_pos hlong]
    rfl
  · rw [e, hdec, if_neg (by omega)]
    rfl
  · rw [e, hdec, if_neg (by omega)]
    rcases hk with rfl | rfl <;> rfl

/-- A decode, and what runs on its state where it passes (rules R163, R185). -/
theorem decodeText_andThen_outcome {f : State → Run} {o : Option Cause} (hd : decodesText i = true)
    (ha : s.inputs.policy.alg ≠ 3) (hf : decodeRuns i s = true → (f (afterDecode i s)).outcome = o) :
    ((decodeText Config.chip s).andThen f).outcome = (firstOf (textRows i s)).or o := by
  rw [← decodeText_outcome hd]
  rcases decodeText_cases s with ⟨-, e⟩ | ⟨out, hlen, hdec, -, e⟩ | ⟨k, -, -, -, e⟩
  · rw [e]
    rfl
  · have hr := decodeRuns_of i s hd ha hlen
    have ho := hf hr
    rw [afterDecode_runs i s hr, decodedBytes_ok s out hdec] at ho
    rw [e, andThen_ok, ho]
    rfl
  · rw [e]
    rfl

/-- The checks of the time triple, and what runs where they pass (rules R181, R182). -/
theorem withTriple_outcome {k : Nat → Nat → Nat → Run} {o : Option Cause} (ht : readsTime i = true)
    (hk : TripleOk s →
      (k (pairValue s.inputs.time) (pairValue s.inputs.epoch) (pairValue s.inputs.timeStep)).outcome = o) :
    (withTriple Config.chip s k).outcome = (firstOf (timeRows i s)).or o := by
  simp only [timeRows, ht, firstOf_rank, firstOf_nil, decide_eq_true_eq]
  rcases withTriple_cases s k with ⟨hz, e⟩ | ⟨hstep, hlt, e⟩ | ⟨hok, e⟩
  · rw [e, if_pos hz]
    rfl
  · rw [e, if_neg hstep, if_pos hlt]
    rfl
  · rw [e, if_neg hok.1, if_neg (Nat.not_lt.mpr hok.2), hk hok]
    rfl

/-! ## hotp_core (ranks 8 to 13) -/

/-- The secret that the core reads is the one the table speaks of. -/
theorem secretBytes_afterDecode (hd : decodesText i = decodeRuns i s) :
    secretBytes (afterDecode i s) = coreSecret i s := by
  unfold coreSecret afterDecode
  rw [hd]
  split
  · next hr => exact setKey_secretBytes s _ (length_decodedBytes s (decodeRuns_textLen i s hr))
  · rfl

/-- TRUNC_RANGE after the length check is no check: a hash of its length holds every window (rule R157). -/
theorem hashStages_outcome (alg : Alg) (h : List Byte) (s : State) :
    (hashStages Config.chip alg h s).outcome =
      if h.length ≠ Config.chip.hashLen alg then some .hashLen
      else if h.length < ((h.getLastD 0) &&& 0x0F).toNat + 4 then some .truncRange else none := by
  by_cases hl : h.length = Config.chip.hashLen alg
  · have hge := hashLen_ge alg
    rw [(hashStages_of_length alg h s hl).2, if_neg (not_not.mpr hl), if_neg (by rw [truncationOffset_eq]; omega)]
    rfl
  · rw [hashStages_wrong alg h s hl, if_pos hl]
    rfl

/-- hotp_core after a command's decode, on the counter that the table speaks of. -/
theorem hotpCore_outcome {alg : Alg} {len : Nat} {c : Nat} (hh : hashes i = true)
    (hdig : digestOf s.inputs.policy.alg = some (alg, len)) (hd : decodesText i = decodeRuns i s)
    (hc : c = (coreCounter i s).toNat) :
    (hotpCore Config.chip alg c (afterDecode i s)).outcome = firstOf (ranksOfCore i s) := by
  obtain ⟨-, -, -, -, -, hin⟩ := afterDecode_frame i s
  have hpolicy : (afterDecode i s).inputs.policy = s.inputs.policy := (congrArg Inputs.policy hin :)
  have hsecret := secretBytes_afterDecode hd
  have hhash : coreHash i s = Config.hmacUnit alg (coreSecret i s) (bigEndian8 (coreCounter i s)) := by
    rw [coreHash, hdig]
  rw [hotpCore_eq, ← length_secretBytes, hsecret, hpolicy, hc, counterBytes_eq_bigEndian8, ← hhash]
  simp only [apply_ite Run.outcome, run_fail_outcome, hashStages_outcome]
  simp only [ranksOfCore, hh, firstOf_rank, firstOf_nil, decide_eq_true_eq, hdig, Option.map_some, ne_eq,
    Option.some_inj, len_of_digestOf hdig, eq_comm (a := Config.chip.hashLen alg)]

theorem coreCounter_of_counter (ht : readsTime i = false) :
    (coreCounter i s).toNat = s.inputs.counter.val Config.chip := by
  rw [coreCounter, ht]
  exact toNat_append s.inputs.counter

theorem coreCounter_of_time (ht : readsTime i = true) : (coreCounter i s).toNat = windowIndex s := by
  rw [coreCounter, ht, if_pos rfl, BitVec.toNat_ofNat, Nat.mod_eq_of_lt (windowIndex_lt s)]

/-- HOTP's core after a command's decode: hotp_core on COUNTER, which the decode step leaves (rule R162). -/
theorem hotpCore_counter_outcome {alg : Alg} {len : Nat} (hh : hashes i = true) (ht : readsTime i = false)
    (hdig : digestOf s.inputs.policy.alg = some (alg, len)) (hd : decodesText i = decodeRuns i s) :
    (hotpCore Config.chip alg ((afterDecode i s).inputs.counter.val Config.chip) (afterDecode i s)).outcome
      = firstOf (ranksOfCore i s) := by
  obtain ⟨-, -, -, -, -, hin⟩ := afterDecode_frame i s
  refine hotpCore_outcome hh hdig hd ?_
  rw [coreCounter_of_counter ht, (congrArg Inputs.counter hin :)]

/-- TOTP's core after a command's decode: the time triple, which the decode step leaves, then hotp_core (rule R184). -/
theorem totpCore_outcome {alg : Alg} {len : Nat} (hh : hashes i = true) (ht : readsTime i = true)
    (hdig : digestOf s.inputs.policy.alg = some (alg, len)) (hd : decodesText i = decodeRuns i s) :
    (totpCore Config.chip alg (afterDecode i s)).outcome
      = (firstOf (timeRows i s)).or (firstOf (ranksOfCore i s)) := by
  obtain ⟨-, -, -, -, -, hin⟩ := afterDecode_frame i s
  have hrows : timeRows i (afterDecode i s) = timeRows i s := by rw [timeRows, hin]; rfl
  have hindex : windowIndex (afterDecode i s) = windowIndex s := by rw [windowIndex, hin]; rfl
  rw [← hrows]
  refine withTriple_outcome ht fun _ => (andThen_ok_outcome _ _).trans (hotpCore_outcome hh hdig hd ?_)
  rw [coreCounter_of_time ht, ← hindex]
  rfl

/-! ## EXPIRE (ranks 5 to 7) -/

theorem expireProc_outcome (s : State) :
    (expireProc Config.chip s).outcome = (firstOf (timeRows .expire s)).or (firstOf (expireRows .expire s)) := by
  simp only [timeRows, expireRows, readsTime, firstOf_rank, firstOf_nil, decide_eq_true_eq, decide_true]
  rcases expireProc_cases s with ⟨hz, e⟩ | ⟨hstep, hlt, e⟩ | ⟨⟨hstep, hepoch⟩, hov, e⟩ | ⟨⟨hstep, hepoch⟩, hfit, e⟩
  · rw [e, if_pos hz]
    rfl
  · rw [e, if_neg hstep, if_pos hlt]
    rfl
  · rw [e, if_neg hstep, if_neg (Nat.not_lt.mpr hepoch), if_pos hov]
    rfl
  · rw [e, if_neg hstep, if_neg (Nat.not_lt.mpr hepoch), if_neg (Nat.not_le.mpr hfit)]
    rfl

end

/-! ## Every command -/

/-- The procedure of every command checks in the order of the table. -/
theorem procOf_outcome (i : Instr) (s : State) : (procOf i s).outcome = firstFailure i s := by
  cases i with
  | nop | zeroize | illegal w => rfl
  | b32dec =>
    rw [firstFailure_eq, firstOf_algRows_skip rfl, firstOf_timeRows_skip rfl, firstOf_ranksOfCore_skip rfl]
    exact (decodeText_outcome rfl).trans (Option.or_none ..).symm
  | expire =>
    rw [firstFailure_eq, firstOf_algRows_skip rfl, firstOf_textRows_skip rfl, firstOf_ranksOfCore_skip rfl,
      Option.or_none]
    exact expireProc_outcome s
  | hotp =>
    rw [firstFailure_of_hashes rfl, firstOf_textRows_skip rfl, firstOf_timeRows_skip rfl]
    refine withAlg_outcome rfl fun alg hdig => ?_
    have h := hotpCore_counter_outcome (i := .hotp) rfl rfl hdig rfl
    rwa [afterDecode_not_decodes _ s rfl] at h
  | totp =>
    rw [firstFailure_of_hashes rfl, firstOf_textRows_skip rfl]
    refine withAlg_outcome rfl fun alg hdig => ?_
    have h := totpCore_outcome (i := .totp) rfl rfl hdig rfl
    rwa [afterDecode_not_decodes _ s rfl] at h
  | hotpB32 =>
    rw [firstFailure_of_hashes rfl, firstOf_timeRows_skip rfl]
    exact withAlg_outcome rfl fun alg hdig => decodeText_andThen_outcome rfl (alg_ne_of_digestOf hdig) fun hr =>
      hotpCore_counter_outcome rfl rfl hdig hr.symm
  | totpB32 =>
    rw [firstFailure_of_hashes rfl]
    exact withAlg_outcome rfl fun alg hdig => decodeText_andThen_outcome rfl (alg_ne_of_digestOf hdig) fun hr =>
      totpCore_outcome rfl rfl hdig hr.symm

/-- Settles O26: FAIL and CAUSE are the procedure's outcome, and that is the table's. -/
theorem causeIsFirstFailingCheck : Obligations.CauseIsFirstFailingCheck := by
  unfold Obligations.CauseIsFirstFailingCheck
  intro i s
  refine ⟨_, exec_eq i s, ?_⟩
  rw [complete_status, completed_fail, completed_cause, procOf_outcome]
  cases firstFailure i s with
  | none => exact ⟨rfl, rfl⟩
  | some k => exact ⟨rfl, rfl⟩

end Sys2Proof.Proofs
end

section
/-! PROOF. Reset of 70_reset_and_hazards.md, also while a command is pending (rules R240, R241). -/

namespace Sys2Proof.Proofs

open Sys2Proof.Machine Sys2Proof.Safety Sys2Proof.Laws

/-- Settles O9: reset's turn is `hardReset`, which keeps only the environment, whether a command is pending or not. -/
theorem resetAbandonsPendingCommand : Obligations.ResetAbandonsPendingCommand := by
  unfold Obligations.ResetAbandonsPendingCommand
  intro s ts ht
  exact step_reset s ts ht

end Sys2Proof.Proofs
end
